-- ==== Sys2Proof/Word.lean ====
section
/-! DEFINITION. The word type, the command word, and the operand width as a doubling of the word. -/

namespace Sys2Proof

/-- A word: "a native 64-bit unsigned integer" (00_scope.md R8). -/
abbrev Word := BitVec 64

/-- The 16-bit command word (30_encoding.md R80). -/
abbrev CommandWord := BitVec 16

/-- A byte of a memory image (20_memory.md R60). -/
abbrev Byte := BitVec 8

/-- The operand width after `j` doublings of the word: `W = 64 * 2^j = 2^k` with `k = 6 + j` (00_scope.md R7).
Written as the source builds its integers, "(high: BigUInt(w/2), low: BigUInt(w/2))" down to one word. -/
def width : Nat → Nat
  | 0 => 64
  | j + 1 => width j + width j

end Sys2Proof
end

