-- ==== Sys2Proof/Config.lean ====
section
/-! DEFINITION. What an implementation fixes (the width of the machine that `State.reset` describes, `recipFn`,
`mulhiAprxFn`) and the free values. -/

namespace Sys2Proof.Config

/-- DESIGN CHOICE (log 1). The doublings of the word in the machine that `State.reset` describes: `W = 128`, the
width of the spec's examples. The model itself is over every `j`. -/
def level : Nat := 1

/-- The reciprocal's bits, a parameter of the implementation (00_scope.md R9, 43_divider.md R174). No body: nothing
is known of it but that it is a function of the divisor. -/
opaque recipFn (W : Nat) : BitVec W → BitVec (W + W)

/-- The approximate high product, a parameter of the implementation (00_scope.md R9, 42_multiplier.md R154). No body. -/
opaque mulhiAprxFn (W : Nat) : BitVec W → BitVec W → BitVec W

/-- The free values: `freeValue W n` is the `n`-th draw of the run, a fresh unconstrained `W`-bit value
(00_scope.md R18, log 6). No body. -/
opaque freeValue (W : Nat) : Nat → BitVec W

end Sys2Proof.Config
end

