-- ==== Sys2Proof/Syntax.lean ====
section
/-! DEFINITION. The commands: one constructor per row of spec/opcode_table.json (30_encoding.md R86). Operands are
in the slots, so a command carries only the free fields of its word. -/

namespace Sys2Proof

/-- The `ALG` field of DIVREMU and DIVREMS (30_encoding.md R84). -/
inductive Alg where
  /-- `ALG = 0`: the reciprocal-based path. -/
  | reciprocal
  /-- `ALG = 1`: the exact path, Knuth's Algorithm D. -/
  | exact
  deriving DecidableEq, Repr

inductive Instr where
  -- word primitives (40_word_primitives.md)
  | wadc
  | wsbc
  | wmul
  | wdiv
  | wclz
  -- adder and subtractor (41_adder_subtractor.md)
  | add
  | sub
  | adc
  | sbc
  | neg
  -- multiplier (42_multiplier.md)
  | mul
  | mulw
  | mulhi
  | mulhia
  -- divider (43_divider.md)
  | divremu (alg : Alg)
  | divrems (alg : Alg)
  | divw
  | recip
  | divr
  -- bitwise operations, barrel shifter, leading-zero counter (44_bitwise_shift_clz.md)
  | bitAnd
  | bitOr
  | bitXor
  | bitNot
  | shl
  | shr
  | sar
  | clz
  -- comparator and width conversion (45_compare_convert.md); `m` is the field `M`
  | cmpu
  | cmps
  | extz (m : BitVec 4)
  | exts (m : BitVec 4)
  -- power and gcd (46_power_gcd.md)
  | pow
  | powm
  | gcd
  -- Montgomery multiplier (47_montgomery.md)
  | minit
  | mreduce
  | mmul
  | mpow
  | mto
  | mfrom
  deriving DecidableEq, Repr

end Sys2Proof
end

