-- ==== Sys2Proof/WellFormed.lean ====
section
/-! DEFINITION. Which commands a unit of width `W` has: the source width of EXTZ and EXTS fits the unit
(30_encoding.md R85). Every other command exists at every width. -/

namespace Sys2Proof

/-- `m = 8 * 2^uint(M)` (30_encoding.md R85). -/
def sourceWidth (m : BitVec 4) : Nat := 8 * 2 ^ m.toNat

/-- Legal on a unit of width `W` (30_encoding.md R83 to R85): `m <= W` for EXTZ and EXTS. -/
def Instr.wellFormed (W : Nat) : Instr → Bool
  | .wadc | .wsbc | .wmul | .wdiv | .wclz => true
  | .add | .sub | .adc | .sbc | .neg => true
  | .mul | .mulw | .mulhi | .mulhia => true
  | .divremu _ | .divrems _ | .divw | .recip | .divr => true
  | .bitAnd | .bitOr | .bitXor | .bitNot | .shl | .shr | .sar | .clz => true
  | .cmpu | .cmps => true
  | .extz m => decide (sourceWidth m ≤ W)
  | .exts m => decide (sourceWidth m ≤ W)
  | .pow | .powm | .gcd => true
  | .minit | .mreduce | .mmul | .mpow | .mto | .mfrom => true

end Sys2Proof
end

