-- ==== Sys2Proof/Decode.lean ====
section
/-! DEFINITION. Decoding a command word (30_encoding.md R81 to R90), total, each rejection under a name; the encoder;
the host's `decodeTableWord`. -/

namespace Sys2Proof

/-- Why a command word is illegal (30_encoding.md R89). Every reason faults ILLEGAL_COMMAND. -/
inductive DecodeError where
  /-- `RSV != 0b00` -/
  | reservedBits
  /-- `OPC` is unassigned -/
  | unassignedOpcode
  /-- `S = 1` with an operation that has no signed form (R83) -/
  | noSignedForm
  /-- `ALG = 1` with an operation other than 0x30 (R84) -/
  | noAlgorithmSelect
  /-- `M != 0` with an operation other than 0x54 (R85) -/
  | noWidthCode
  /-- `8 * 2^uint(M) > W` (R85) -/
  | sourceTooWide
  deriving DecidableEq, Repr

/-- `OPC = cmd[7:0]` (30_encoding.md R81). -/
def opcOf (cmd : CommandWord) : BitVec 8 := cmd.extractLsb' 0 8

/-- `S = cmd[8]`. -/
def signOf (cmd : CommandWord) : Bool := cmd.getLsbD 8

/-- `ALG = cmd[9]`. -/
def algOf (cmd : CommandWord) : Bool := cmd.getLsbD 9

/-- `M = cmd[13:10]`. -/
def widthCodeOf (cmd : CommandWord) : BitVec 4 := cmd.extractLsb' 10 4

/-- `RSV = cmd[15:14]`. -/
def reservedOf (cmd : CommandWord) : BitVec 2 := cmd.extractLsb' 14 2

/-- The `OPC` column of 30_encoding.md R86. -/
def assignedOpcodes : List (BitVec 8) :=
  [0x01, 0x02, 0x03, 0x04, 0x05] ++
  [0x10, 0x11, 0x12, 0x13, 0x14] ++
  [0x20, 0x21, 0x22, 0x23] ++
  [0x30, 0x31, 0x32, 0x33] ++
  [0x40, 0x41, 0x42, 0x43, 0x48, 0x49, 0x4C] ++
  [0x50, 0x54] ++
  [0x60, 0x61, 0x62] ++
  [0x70, 0x71, 0x72, 0x73, 0x74, 0x75]

/-- The operations with a signed form (30_encoding.md R83). -/
def signedOpcodes : List (BitVec 8) := [0x30, 0x49, 0x50, 0x54]

/-- The meaning of the `ALG` bit (30_encoding.md R84). -/
def Alg.ofBit (b : Bool) : Alg := if b then .exact else .reciprocal

def Alg.bit : Alg → Bool
  | .reciprocal => false
  | .exact => true

/-- The row of 30_encoding.md R86 with this `OPC` and `S`; `alg` and `m` fill the row's free field. -/
def opcodeRow (opc : BitVec 8) (s : Bool) (alg : Alg) (m : BitVec 4) : Option Instr :=
  match opc.toNat, s with
  | 0x01, false => some .wadc
  | 0x02, false => some .wsbc
  | 0x03, false => some .wmul
  | 0x04, false => some .wdiv
  | 0x05, false => some .wclz
  | 0x10, false => some .add
  | 0x11, false => some .sub
  | 0x12, false => some .adc
  | 0x13, false => some .sbc
  | 0x14, false => some .neg
  | 0x20, false => some .mul
  | 0x21, false => some .mulw
  | 0x22, false => some .mulhi
  | 0x23, false => some .mulhia
  | 0x30, false => some (.divremu alg)
  | 0x30, true  => some (.divrems alg)
  | 0x31, false => some .divw
  | 0x32, false => some .recip
  | 0x33, false => some .divr
  | 0x40, false => some .bitAnd
  | 0x41, false => some .bitOr
  | 0x42, false => some .bitXor
  | 0x43, false => some .bitNot
  | 0x48, false => some .shl
  | 0x49, false => some .shr
  | 0x49, true  => some .sar
  | 0x4C, false => some .clz
  | 0x50, false => some .cmpu
  | 0x50, true  => some .cmps
  | 0x54, false => some (.extz m)
  | 0x54, true  => some (.exts m)
  | 0x60, false => some .pow
  | 0x61, false => some .powm
  | 0x62, false => some .gcd
  | 0x70, false => some .minit
  | 0x71, false => some .mreduce
  | 0x72, false => some .mmul
  | 0x73, false => some .mpow
  | 0x74, false => some .mto
  | 0x75, false => some .mfrom
  | _, _ => none

/-- Decoding against the unit's `W`, the checks in the order of 30_encoding.md R88. -/
def decode (W : Nat) (cmd : CommandWord) : Except DecodeError Instr :=
  if reservedOf cmd ≠ 0 then .error .reservedBits
  else if opcOf cmd ∉ assignedOpcodes then .error .unassignedOpcode
  else if signOf cmd = true ∧ opcOf cmd ∉ signedOpcodes then .error .noSignedForm
  else if algOf cmd = true ∧ opcOf cmd ≠ 0x30 then .error .noAlgorithmSelect
  else if opcOf cmd = 0x54 ∧ W < sourceWidth (widthCodeOf cmd) then .error .sourceTooWide
  else if opcOf cmd ≠ 0x54 ∧ widthCodeOf cmd ≠ 0 then .error .noWidthCode
  else
    match opcodeRow (opcOf cmd) (signOf cmd) (.ofBit (algOf cmd)) (widthCodeOf cmd) with
    | some i => .ok i
    | none => .error .unassignedOpcode

/-- The command word with these fields and `RSV = 0` (30_encoding.md R81). -/
def commandWord (opc : BitVec 8) (s : Bool) (alg : Bool) (m : BitVec 4) : CommandWord :=
  0#2 ++ (m ++ (BitVec.ofBool alg ++ (BitVec.ofBool s ++ opc)))

/-- The command word of an instruction, from the rows of 30_encoding.md R86. -/
def encode : Instr → CommandWord
  | .wadc => commandWord 0x01 false false 0
  | .wsbc => commandWord 0x02 false false 0
  | .wmul => commandWord 0x03 false false 0
  | .wdiv => commandWord 0x04 false false 0
  | .wclz => commandWord 0x05 false false 0
  | .add => commandWord 0x10 false false 0
  | .sub => commandWord 0x11 false false 0
  | .adc => commandWord 0x12 false false 0
  | .sbc => commandWord 0x13 false false 0
  | .neg => commandWord 0x14 false false 0
  | .mul => commandWord 0x20 false false 0
  | .mulw => commandWord 0x21 false false 0
  | .mulhi => commandWord 0x22 false false 0
  | .mulhia => commandWord 0x23 false false 0
  | .divremu alg => commandWord 0x30 false alg.bit 0
  | .divrems alg => commandWord 0x30 true alg.bit 0
  | .divw => commandWord 0x31 false false 0
  | .recip => commandWord 0x32 false false 0
  | .divr => commandWord 0x33 false false 0
  | .bitAnd => commandWord 0x40 false false 0
  | .bitOr => commandWord 0x41 false false 0
  | .bitXor => commandWord 0x42 false false 0
  | .bitNot => commandWord 0x43 false false 0
  | .shl => commandWord 0x48 false false 0
  | .shr => commandWord 0x49 false false 0
  | .sar => commandWord 0x49 true false 0
  | .clz => commandWord 0x4C false false 0
  | .cmpu => commandWord 0x50 false false 0
  | .cmps => commandWord 0x50 true false 0
  | .extz m => commandWord 0x54 false false m
  | .exts m => commandWord 0x54 true false m
  | .pow => commandWord 0x60 false false 0
  | .powm => commandWord 0x61 false false 0
  | .gcd => commandWord 0x62 false false 0
  | .minit => commandWord 0x70 false false 0
  | .mreduce => commandWord 0x71 false false 0
  | .mmul => commandWord 0x72 false false 0
  | .mpow => commandWord 0x73 false false 0
  | .mto => commandWord 0x74 false false 0
  | .mfrom => commandWord 0x75 false false 0

/-- The command word among the low `nbits` bits of `w`; every higher bit is 0. -/
def tableWord (nbits w : Nat) : CommandWord := BitVec.ofNat 16 (w % 2 ^ nbits)

/-- The instruction the decoder of the reset machine (`W = 128`, log 1) reads from a table word (log 22). -/
def decodeTableWord (nbits w : Nat) : Option Instr :=
  (decode (width Config.level) (tableWord nbits w)).toOption

end Sys2Proof
end

