-- ==== Sys2Proof/Machine/Flags.lean ====
section
/-! DEFINITION. The one flag the unit has, `F`: carry out and borrow out (10_state.md R34). -/

namespace Sys2Proof.Machine

/-- Carry out of an `N`-bit sum: `F <- 1 if s >= 2^N else 0` (R111, R133). -/
def carryOut (N s : Nat) : Bool := decide (2 ^ N ≤ s)

/-- Borrow out of a difference: `F <- 1 if d < 0 else 0` (R112, R134). -/
def borrowOut (d : Int) : Bool := decide (d < 0)

end Sys2Proof.Machine
end

