-- ==== Sys2Proof/Machine/State.lean ====
section
/-! DEFINITION. The state of the unit as plain data, and reset (10_state.md). -/

namespace Sys2Proof.Machine

/-- One command as the host presents it: the command word and the four operand slots `X[0]` to `X[3]`
(30_encoding.md R80, 10_state.md R30). -/
structure Command (W : Nat) where
  word : CommandWord
  x0 : BitVec W
  x1 : BitVec W
  x2 : BitVec W
  x3 : BitVec W
  deriving DecidableEq, Repr

/-- One response: the result slots `Y[0]`, `Y[1]` and the carry flag `F` (10_state.md R33, R34). -/
structure Response (W : Nat) where
  y0 : BitVec W
  y1 : BitVec W
  f : Bool
  deriving DecidableEq, Repr

/-- The Montgomery context register `MCTX` (10_state.md R35, R36). -/
structure Mctx (W : Nat) where
  valid : Bool
  n : BitVec W
  ninv : BitVec W
  recip : BitVec (W + W)
  one : BitVec W
  deriving DecidableEq, Repr

/-- The operand slots by index, for the record of a zero divisor (60_exceptions.md R300). -/
inductive Slot where
  | x0
  | x1
  | x2
  | x3
  deriving DecidableEq, Repr

/-- The fault latch `FAULT` with what each fault records (10_state.md R39; 60_exceptions.md R300). -/
inductive FaultLatch (W : Nat) where
  /-- no fault -/
  | none
  /-- the command word failed decoding -/
  | illegalCommand (word : CommandWord)
  /-- a Montgomery command with `MCTX.valid = 0` -/
  | noContext (word : CommandWord)
  /-- MINIT with an even modulus -/
  | evenModulus (word : CommandWord) (x0 : BitVec W)
  /-- a zero divisor or modulus, in the named slot -/
  | divideByZero (word : CommandWord) (zero : Slot)
  /-- WDIV or DIVW with numerator high at or above the divisor -/
  | divideOverflow (word : CommandWord)
  deriving DecidableEq, Repr

/-- The fault codes' names (60_exceptions.md R300). -/
inductive FaultName where
  | none
  | illegalCommand
  | noContext
  | evenModulus
  | divideByZero
  | divideOverflow
  deriving DecidableEq, Repr

/-- What a run that ended shows: the responses in the order of their commands with the final `MCTX` of a good run, the
fault with the responses before it of a bad one (70_reset_and_hazards.md R355). -/
inductive Observation (W : Nat) where
  | good (responses : List (Response W)) (mctx : Mctx W)
  | bad (fault : FaultName) (responses : List (Response W))
  deriving DecidableEq, Repr

/-- What the host does to the unit: it presents a command, or it applies reset (00_scope.md R3,
70_reset_and_hazards.md R340). -/
inductive HostEvent (W : Nat) where
  | command (c : Command W)
  | reset
  deriving DecidableEq, Repr

/-- The state. `MCTX` and `FAULT` are what the unit keeps (10_state.md R35, R39); the rest is its interface: the
command presented to it, the host's stream, the responses it has returned, and the model's counter of draws. -/
structure State where
  /-- the width parameter: `W = width j` (00_scope.md R7, log 1); no step changes it -/
  j : Nat
  /-- the command presented to the unit: its word and its operand slots (log 3) -/
  cmd : Command (width j)
  /-- what the host has still to do, in order (10_state.md R32, log 2) -/
  stream : List (HostEvent (width j))
  /-- the responses returned since reset, the latest first (70_reset_and_hazards.md R355, log 4) -/
  responses : List (Response (width j))
  mctx : Mctx (width j)
  fault : FaultLatch (width j)
  /-- how many draws the run has taken (00_scope.md R18, log 6) -/
  draws : Nat
  deriving DecidableEq, Repr

/-- Why a step stops. -/
inductive Fault where
  /-- Raised by `step` alone, when the host presents a command while `FAULT != NONE`: "the model accepts no further
  command" (60_exceptions.md R303, log 9). It carries the unit's `j` and what the run, which ended badly, shows
(70_reset_and_hazards.md R355). Safe: nothing is claimed of what follows the fault. -/
  | latched (j : Nat) (observed : Observation (width j))
  deriving DecidableEq, Repr

/-- Why an instruction has no meaning. -/
inductive Refusal where
  /-- Raised by an arm of `exec` whose instruction is not modelled. No arm raises it. Safe. -/
  | notModelled (mnemonic : String)
  deriving DecidableEq, Repr

/-- DESIGN CHOICE (log 3): the command input before the first command, which the spec gives no value. -/
def Command.zero (W : Nat) : Command W := ⟨0, 0, 0, 0, 0⟩

/-- `MCTX` after reset: `valid = 0` (10_state.md R41). DESIGN CHOICE (log 5): the other fields, which the spec leaves
unspecified, are 0. -/
def Mctx.reset (W : Nat) : Mctx W := ⟨false, 0, 0, 0, 0⟩

/-- A unit of width `width j` right after reset (10_state.md R41, 70_reset_and_hazards.md R340, R341). -/
def State.resetAt (j : Nat) : State where
  j := j
  cmd := Command.zero (width j)
  stream := []
  responses := []
  mctx := Mctx.reset (width j)
  fault := .none
  draws := 0

/-- The machine right after reset, at the width of Config (log 1). -/
def State.reset : State := State.resetAt Config.level

end Sys2Proof.Machine
end

