-- ==== Sys2Proof/Machine/Operands.lean ====
section
/-! DEFINITION. The operand forms: slots, low words, carry in, two-slot operands (30_encoding.md R87). -/

namespace Sys2Proof.Machine

/-- `X[i][63:0]`, what a word primitive reads of a slot (40_word_primitives.md R110). -/
def lowWord {W : Nat} (v : BitVec W) : Word := v.setWidth 64

/-- `zext_W` of a word, how a word primitive writes a result (40_word_primitives.md R110). -/
def zextWord (W : Nat) (v : Word) : BitVec W := v.setWidth W

/-- A carry or borrow in: bit 0 of its slot, the other bits ignored (30_encoding.md R87). -/
def carryBit {W : Nat} (v : BitVec W) : Bool := v.getLsbD 0

/-- `uint({hi, lo})` of a two-slot operand (00_scope.md R14). -/
def uintPair {N : Nat} (hi lo : BitVec N) : Nat := (hi ++ lo).toNat

/-- The low half of a `2W`-bit value (00_scope.md R14). -/
def lowHalf {W : Nat} (v : BitVec (W + W)) : BitVec W := v.extractLsb' 0 W

/-- The high half of a `2W`-bit value (00_scope.md R14). -/
def highHalf {W : Nat} (v : BitVec (W + W)) : BitVec W := v.extractLsb' W W

namespace State

/-- The unit's operand width (00_scope.md R7). -/
abbrev W (s : State) : Nat := width s.j

/-- Operand slot `X[0]` (10_state.md R30). -/
abbrev X0 (s : State) : BitVec s.W := s.cmd.x0

/-- Operand slot `X[1]`. -/
abbrev X1 (s : State) : BitVec s.W := s.cmd.x1

/-- Operand slot `X[2]`. -/
abbrev X2 (s : State) : BitVec s.W := s.cmd.x2

/-- Operand slot `X[3]`. -/
abbrev X3 (s : State) : BitVec s.W := s.cmd.x3

end State

end Sys2Proof.Machine
end

