-- ==== Sys2Proof/Machine/Arith.lean ====
section
/-! DEFINITION. The functions the units compute, each once, at any width: add and subtract with carry, widening
multiply, wide divide, leading zeros, shifts, compare, powers, inverses (00_scope.md R10 to R17). -/

namespace Sys2Proof.Machine

variable {N : Nat}

/-- `N`-bit add with carry in and carry out (R111, R133). -/
def addCarry (c : Bool) (a b : BitVec N) : BitVec N × Bool :=
  let s := a.toNat + b.toNat + c.toNat
  (BitVec.ofNat N s, carryOut N s)

/-- `N`-bit subtract with borrow in and borrow out (R112, R134). -/
def subBorrow (c : Bool) (a b : BitVec N) : BitVec N × Bool :=
  let d : Int := a.toNat - b.toNat - c.toNat
  (BitVec.ofInt N d, borrowOut d)

/-- The full `2N`-bit product (R113, R152). -/
def fullProduct (a b : BitVec N) : BitVec (N + N) := BitVec.ofNat (N + N) (a.toNat * b.toNat)

/-- Quotient and remainder of two unsigned values (R171). -/
def divRemU (a d : BitVec N) : BitVec N × BitVec N :=
  (BitVec.ofNat N (a.toNat / d.toNat), BitVec.ofNat N (a.toNat % d.toNat))

/-- Quotient rounded toward zero and remainder with the dividend's sign (R172, `tdiv` and `trem` of R16). -/
def divRemS (a d : BitVec N) : BitVec N × BitVec N :=
  (BitVec.ofInt N (Int.tdiv a.toInt d.toInt), BitVec.ofInt N (Int.tmod a.toInt d.toInt))

/-- A `2N`-bit numerator `{nh, nl}` by an `N`-bit divisor (R114, R173); meant for `nh < d`. -/
def divWide (nh nl d : BitVec N) : BitVec N × BitVec N :=
  (BitVec.ofNat N (uintPair nh nl / d.toNat), BitVec.ofNat N (uintPair nh nl % d.toNat))

/-- `clz_N(v)` (00_scope.md R17): the zero bits above the most significant one bit, `N` for 0. -/
def leadingZeros (v : BitVec N) : Nat := if v = 0 then N else N - 1 - Nat.log2 v.toNat

/-- Left shift, zero fill, every amount defined (R204, R205). -/
def shiftLeft (v : BitVec N) (sh : Nat) : BitVec N :=
  if N ≤ sh then 0 else BitVec.ofNat N (v.toNat * 2 ^ sh)

/-- Logical right shift (R204, R206). -/
def shiftRight (v : BitVec N) (sh : Nat) : BitVec N :=
  if N ≤ sh then 0 else BitVec.ofNat N (v.toNat / 2 ^ sh)

/-- Arithmetic right shift, rounding toward minus infinity (R204, R207). `/` on Int is the floor for a positive
divisor. -/
def shiftRightArith (v : BitVec N) (sh : Nat) : BitVec N :=
  if N ≤ sh then (if v.msb then BitVec.ofInt N (-1) else 0) else BitVec.ofInt N (v.toInt / 2 ^ sh)

/-- The comparator's output: -1, 0 or 1 for less, equal, greater (R230, R231). -/
def orderBits (N : Nat) : Ordering → BitVec N
  | .lt => BitVec.ofInt N (-1)
  | .eq => 0
  | .gt => 1

/-- Unsigned order (R230). -/
def compareU (a b : BitVec N) : Ordering :=
  if a.toNat < b.toNat then .lt else if a.toNat = b.toNat then .eq else .gt

/-- Signed order (R231). -/
def compareS (a b : BitVec N) : Ordering :=
  if a.toInt < b.toInt then .lt else if a.toInt = b.toInt then .eq else .gt

/-- The low `m` bits, zero-extended (R232, 00_scope.md R15). -/
def zeroExtendFrom (m : Nat) (v : BitVec N) : BitVec N := (v.setWidth m).setWidth N

/-- The low `m` bits, sign-extended (R233, 00_scope.md R15). -/
def signExtendFrom (m : Nat) (v : BitVec N) : BitVec N := (v.setWidth m).signExtend N

/-- Square and multiply (R250): `fuel` bits of the exponent `e`, from the lowest; `r` is the product so far and `b` the
current square, both reduced modulo `m`. -/
def powModLoop (m : Nat) : Nat → Nat → Nat → Nat → Nat
  | 0, r, _, _ => r
  | fuel + 1, r, b, e =>
    powModLoop m fuel (if e % 2 = 1 then r * b % m else r) (b * b % m) (e / 2)

/-- `a^e rem m` for an exponent of at most `bits` bits, by square and multiply (R250, R251). -/
def powMod (bits a e m : Nat) : Nat := powModLoop m bits (1 % m) (a % m) e

/-- One Newton step for the inverse modulo `2^N` is `x <- x * (2 - n * x)`; `r` steps from `x` (R272). -/
def newtonInverse (N n : Nat) : Nat → Nat → Nat
  | 0, x => x
  | r + 1, x => newtonInverse N n r (x * (2 + 2 ^ N - n * x % 2 ^ N) % 2 ^ N)

/-- `n^(-1) mod 2^N` for odd `n`: as many Newton steps as the width has doublings of one bit, from `x = n`, whose low
3 bits are right (R272, log 12). -/
def inversePow2 (N n : Nat) : Nat := newtonInverse N n N.log2 (n % 2 ^ N)

/-- `Rinv` of 47_montgomery.md R270: the integer in `[0, n)` with `(2^N * Rinv) rem n = 1 rem n`. For odd `n`, `(n+1)/2`
is the inverse of 2 modulo `n`, so its `N`-th power is the inverse of `2^N` (log 11). -/
def radixInverse (N n : Nat) : Nat := ((n + 1) / 2) ^ N % n

/-- `T * R^(-1) mod n`, the value of a Montgomery reduction (R273). -/
def montReduce (N n T : Nat) : Nat := T * radixInverse N n % n

end Sys2Proof.Machine
end

