-- ==== Sys2Proof/Machine/Ops.lean ====
section
/-! DEFINITION. The operations every command ends in: a response, a fault (the unit's exception, 60_exceptions.md R303),
a draw; the checks before them; accepting a command; reset by the host; what a run shows. -/

namespace Sys2Proof.Machine

/-- What a meaning answers. -/
abbrev Result := Host.Outcome State Fault Refusal

/-- The name of a latched fault (60_exceptions.md R300). -/
def FaultLatch.name {W : Nat} : FaultLatch W → FaultName
  | .none => .none
  | .illegalCommand _ => .illegalCommand
  | .noContext _ => .noContext
  | .evenModulus _ _ => .evenModulus
  | .divideByZero _ _ => .divideByZero
  | .divideOverflow _ => .divideOverflow

/-- The fault's code (60_exceptions.md R300). -/
def FaultName.code : FaultName → Nat
  | .none => 0
  | .illegalCommand => 1
  | .noContext => 2
  | .evenModulus => 3
  | .divideByZero => 4
  | .divideOverflow => 5

namespace State

/-- Return a response (10_state.md R33). -/
def withResponse (s : State) (r : Response s.W) : State := { s with responses := r :: s.responses }

/-- Set the fault latch. -/
def withFault (s : State) (r : FaultLatch s.W) : State := { s with fault := r }

/-- Write `MCTX`, as a whole (10_state.md R37). -/
def withMctx (s : State) (m : Mctx s.W) : State := { s with mctx := m }

/-- Take `k` draws: the following ones are fresh (00_scope.md R18, log 6). -/
def withDraws (s : State) (k : Nat) : State := { s with draws := s.draws + k }

/-- The host adds an event in front of its stream. -/
def withEvent (s : State) (e : HostEvent s.W) : State := { s with stream := e :: s.stream }

/-- Accept the next command of the stream: its word and slots are presented (10_state.md R30, R32). -/
def accept (s : State) (c : Command s.W) (rest : List (HostEvent s.W)) : State :=
  { s with cmd := c, stream := rest }

/-- Reset by the host (70_reset_and_hazards.md R340): the reset state at the unit's width. What the host has still to
do stays, and draws stay fresh (log 10). -/
def applyReset (s : State) (rest : List (HostEvent s.W)) : State :=
  { State.resetAt s.j with stream := rest, draws := s.draws }

/-- The `i`-th next draw, `draw_W()` (00_scope.md R18, log 6). -/
def drawn (s : State) (i : Nat) : BitVec s.W := Config.freeValue s.W (s.draws + i)

/-- End with both result slots and the flag. -/
def respond (s : State) (y0 y1 : BitVec s.W) (f : Bool) : Result := .next (s.withResponse ⟨y0, y1, f⟩)

/-- End with `Y[0]` alone: what a rule does not name is 0 (00_scope.md R19). -/
def respond0 (s : State) (y0 : BitVec s.W) : Result := s.respond y0 0 false

/-- End with a two-slot result `{Y[1], Y[0]}` (10_state.md R33). -/
def respondPair (s : State) (v : BitVec (s.W + s.W)) : Result := s.respond (lowHalf v) (highHalf v) false

/-- End with a draw in `Y[0]` (60_exceptions.md R314). -/
def respondDraw (s : State) : Result := .next ((s.withResponse ⟨s.drawn 0, 0, false⟩).withDraws 1)

/-- End with draws in `Y[0]` and `Y[1]`, independent of each other (60_exceptions.md R314). -/
def respondDraws (s : State) : Result := .next ((s.withResponse ⟨s.drawn 0, s.drawn 1, false⟩).withDraws 2)

/-- End with a new context: `MCTX` is written whole, and `Y[0]`, `Y[1]` return two of its fields (10_state.md R36, R37). -/
def respondContext (s : State) (m : Mctx s.W) : Result :=
  .next { s with mctx := m, responses := ⟨m.one, m.ninv, false⟩ :: s.responses }

/-- TAKE A FAULT (60_exceptions.md R303): `FAULT` is set, nothing else is written. There is no return from it but reset
(R305). -/
def raise (s : State) (r : FaultLatch s.W) : Result := .next (s.withFault r)

/-- What the run shows that ended in `s`: with `FAULT = NONE` the responses and `MCTX`, else the fault and the responses
before it, for a fault writes no response (70_reset_and_hazards.md R355, 60_exceptions.md R303). -/
def observation (s : State) : Observation s.W :=
  if s.fault = .none then .good s.responses.reverse s.mctx else .bad s.fault.name s.responses.reverse

/-- `if MCTX.valid = 0 : raise Fault(NO_CONTEXT)` (60_exceptions.md R301). -/
def requireContext (s : State) (k : Result) : Result :=
  if s.mctx.valid then k else s.raise (.noContext s.cmd.word)

/-- `if uint(d) = 0 : raise Fault(DIVIDE_BY_ZERO)`, `d` from the named slot (43_divider.md R170). -/
def requireNonzero (s : State) {N : Nat} (d : BitVec N) (slot : Slot) (k : Result) : Result :=
  if d = 0 then s.raise (.divideByZero s.cmd.word slot) else k

/-- `if uint(nh) >= uint(d) : raise Fault(DIVIDE_OVERFLOW)` (R114, R173). -/
def requireBelow (s : State) {N : Nat} (nh d : BitVec N) (k : Result) : Result :=
  if d.toNat ≤ nh.toNat then s.raise (.divideOverflow s.cmd.word) else k

end State

end Sys2Proof.Machine
end

