-- ==== Sys2Proof/Machine/AddSub.lean ====
section
/-! DEFINITION. The `W`-bit adder and subtractor (41_adder_subtractor.md). -/

namespace Sys2Proof.Machine

/-- ADD (R131): the carry out is discarded. -/
def execAdd (s : State) : Result := s.respond0 (addCarry false s.X0 s.X1).1

/-- SUB (R132): the borrow out is discarded. -/
def execSub (s : State) : Result := s.respond0 (subBorrow false s.X0 s.X1).1

/-- ADC (R133). -/
def execAdc (s : State) : Result :=
  let r := addCarry (carryBit s.X2) s.X0 s.X1
  s.respond r.1 0 r.2

/-- SBC (R134). -/
def execSbc (s : State) : Result :=
  let r := subBorrow (carryBit s.X2) s.X0 s.X1
  s.respond r.1 0 r.2

/-- NEG (R135). -/
def execNeg (s : State) : Result := s.respond0 (subBorrow false 0 s.X0).1

end Sys2Proof.Machine
end

