-- ==== Sys2Proof/Machine/Bitwise.lean ====
section
/-! DEFINITION. Bitwise operations, the barrel shifter and the leading-zero counter (44_bitwise_shift_clz.md). -/

namespace Sys2Proof.Machine

/-- AND (R200). -/
def execAnd (s : State) : Result := s.respond0 (s.X0 &&& s.X1)

/-- OR (R201). -/
def execOr (s : State) : Result := s.respond0 (s.X0 ||| s.X1)

/-- XOR (R202). -/
def execXor (s : State) : Result := s.respond0 (s.X0 ^^^ s.X1)

/-- NOT (R203). -/
def execNot (s : State) : Result := s.respond0 (~~~ s.X0)

/-- SHL (R205); the amount is the whole slot `X[1]` (R204). -/
def execShl (s : State) : Result := s.respond0 (shiftLeft s.X0 s.X1.toNat)

/-- SHR (R206). -/
def execShr (s : State) : Result := s.respond0 (shiftRight s.X0 s.X1.toNat)

/-- SAR (R207). -/
def execSar (s : State) : Result := s.respond0 (shiftRightArith s.X0 s.X1.toNat)

/-- CLZ (R208). -/
def execClz (s : State) : Result := s.respond0 (BitVec.ofNat s.W (leadingZeros s.X0))

end Sys2Proof.Machine
end

