-- ==== Sys2Proof/Machine/Compare.lean ====
section
/-! DEFINITION. The comparator and width conversion (45_compare_convert.md). -/

namespace Sys2Proof.Machine

/-- CMPU (R230). -/
def execCmpu (s : State) : Result := s.respond0 (orderBits s.W (compareU s.X0 s.X1))

/-- CMPS (R231). -/
def execCmps (s : State) : Result := s.respond0 (orderBits s.W (compareS s.X0 s.X1))

/-- EXTZ (R232); `m <= W` by decoding. -/
def execExtz (m : BitVec 4) (s : State) : Result := s.respond0 (zeroExtendFrom (sourceWidth m) s.X0)

/-- EXTS (R233); `m <= W` by decoding. -/
def execExts (m : BitVec 4) (s : State) : Result := s.respond0 (signExtendFrom (sourceWidth m) s.X0)

end Sys2Proof.Machine
end

