-- ==== Sys2Proof/Machine/Divider.lean ====
section
/-! DEFINITION. The `W`-bit divider (43_divider.md). -/

namespace Sys2Proof.Machine

/-- DIVREMU (R171). `ALG` names the algorithm and changes no result (30_encoding.md R84). -/
def execDivremu (_alg : Alg) (s : State) : Result :=
  s.requireNonzero s.X1 .x1 <|
  let r := divRemU s.X0 s.X1
  s.respond r.1 r.2 false

/-- DIVREMS (R172). `ALG` changes no result. -/
def execDivrems (_alg : Alg) (s : State) : Result :=
  s.requireNonzero s.X1 .x1 <|
  let r := divRemS s.X0 s.X1
  s.respond r.1 r.2 false

/-- DIVW (R173): numerator `{X[0], X[1]}`, divisor `X[2]`. -/
def execDivw (s : State) : Result :=
  s.requireNonzero s.X2 .x2 <|
  s.requireBelow s.X0 s.X2 <|
  let r := divWide s.X0 s.X1 s.X2
  s.respond r.1 r.2 false

/-- RECIP (R174): the implementation's parameter. -/
def execRecip (s : State) : Result :=
  s.requireNonzero s.X0 .x0 <| s.respondPair (Config.recipFn s.W s.X0)

/-- DIVR (R175): exact with the divisor's own reciprocal `{X[3], X[2]}`, draws with any other. -/
def execDivr (s : State) : Result :=
  s.requireNonzero s.X1 .x1 <|
  if s.X3 ++ s.X2 = Config.recipFn s.W s.X1 then
    let r := divRemU s.X0 s.X1
    s.respond r.1 r.2 false
  else s.respondDraws

end Sys2Proof.Machine
end

