-- ==== Sys2Proof/Machine/Montgomery.lean ====
section
/-! DEFINITION. The Montgomery multiplier (47_montgomery.md). -/

namespace Sys2Proof.Machine

/-- The context of an odd modulus (R272; 10_state.md R36). -/
def contextOf {W : Nat} (n : BitVec W) : Mctx W where
  valid := true
  n := n
  ninv := BitVec.ofNat W (inversePow2 W n.toNat)
  recip := Config.recipFn W n
  one := BitVec.ofNat W (2 ^ W % n.toNat)

/-- `uint(MCTX.n)` (R271). -/
def State.modulus (s : State) : Nat := s.mctx.n.toNat

/-- MINIT (R272): an even modulus faults and leaves `MCTX` alone; an odd one loads its context whole. -/
def execMinit (s : State) : Result :=
  if s.X0.getLsbD 0 = false then s.raise (.evenModulus s.cmd.word s.X0)
  else s.respondContext (contextOf s.X0)

/-- MREDUCE (R273): `T = uint({X[1], X[0]})`. -/
def execMreduce (s : State) : Result :=
  s.requireContext <|
  if s.modulus * 2 ^ s.W ≤ uintPair s.X1 s.X0 then s.respondDraw
  else s.respond0 (BitVec.ofNat s.W (montReduce s.W s.modulus (uintPair s.X1 s.X0)))

/-- MMUL (R274): MREDUCE of the product. -/
def execMmul (s : State) : Result :=
  s.requireContext <|
  if s.modulus * 2 ^ s.W ≤ s.X0.toNat * s.X1.toNat then s.respondDraw
  else s.respond0 (BitVec.ofNat s.W (montReduce s.W s.modulus (s.X0.toNat * s.X1.toNat)))

/-- MPOW (R275): `(2^W * ((a * Rinv) rem n)^e) rem n`. -/
def execMpow (s : State) : Result :=
  s.requireContext <|
  if s.modulus ≤ s.X0.toNat then s.respondDraw
  else s.respond0 (BitVec.ofNat s.W
    (2 ^ s.W * powMod s.W (montReduce s.W s.modulus s.X0.toNat) s.X1.toNat s.modulus % s.modulus))

/-- MTO (R276): into Montgomery representation. -/
def execMto (s : State) : Result :=
  s.requireContext <| s.respond0 (BitVec.ofNat s.W (s.X0.toNat * 2 ^ s.W % s.modulus))

/-- MFROM (R277): out of Montgomery representation. -/
def execMfrom (s : State) : Result :=
  s.requireContext <| s.respond0 (BitVec.ofNat s.W (montReduce s.W s.modulus s.X0.toNat))

end Sys2Proof.Machine
end

