-- ==== Sys2Proof/Machine/Multiplier.lean ====
section
/-! DEFINITION. The `W`-bit multiplier (42_multiplier.md). -/

namespace Sys2Proof.Machine

/-- MUL (R151): the low half of the product. -/
def execMul (s : State) : Result := s.respond0 (BitVec.ofNat s.W (s.X0.toNat * s.X1.toNat))

/-- MULW (R152): the full product. -/
def execMulw (s : State) : Result := s.respondPair (fullProduct s.X0 s.X1)

/-- MULHI (R153): the high half of the product. -/
def execMulhi (s : State) : Result := s.respond0 (BitVec.ofNat s.W (s.X0.toNat * s.X1.toNat / 2 ^ s.W))

/-- MULHIA (R154): the implementation's parameter. -/
def execMulhia (s : State) : Result := s.respond0 (Config.mulhiAprxFn s.W s.X0 s.X1)

end Sys2Proof.Machine
end

