-- ==== Sys2Proof/Machine/Power.lean ====
section
/-! DEFINITION. Power, modular power and gcd (46_power_gcd.md). -/

namespace Sys2Proof.Machine

/-- POW (R250): `uint(X[0]) ^ uint(X[1])` modulo `2^W`, with `x^0 = 1`. -/
def execPow (s : State) : Result :=
  s.respond0 (BitVec.ofNat s.W (powMod s.W s.X0.toNat s.X1.toNat (2 ^ s.W)))

/-- POWM (R251): modulo `X[2]`. -/
def execPowm (s : State) : Result :=
  s.requireNonzero s.X2 .x2 <|
  s.respond0 (BitVec.ofNat s.W (powMod s.W s.X0.toNat s.X1.toNat s.X2.toNat))

/-- GCD (R252): the value of Euclid's loop, `gcd(0, 0) = 0` among them (log 13). -/
def execGcd (s : State) : Result := s.respond0 (BitVec.ofNat s.W (Nat.gcd s.X0.toNat s.X1.toNat))

end Sys2Proof.Machine
end

