-- ==== Sys2Proof/Machine/WordPrimitives.lean ====
section
/-! DEFINITION. The word primitives at 64 bits (40_word_primitives.md). -/

namespace Sys2Proof.Machine

/-- WADC (R111). -/
def execWadc (s : State) : Result :=
  let r := addCarry (carryBit s.X2) (lowWord s.X0) (lowWord s.X1)
  s.respond (zextWord s.W r.1) 0 r.2

/-- WSBC (R112). -/
def execWsbc (s : State) : Result :=
  let r := subBorrow (carryBit s.X2) (lowWord s.X0) (lowWord s.X1)
  s.respond (zextWord s.W r.1) 0 r.2

/-- WMUL (R113). -/
def execWmul (s : State) : Result :=
  let p := fullProduct (lowWord s.X0) (lowWord s.X1)
  s.respond (zextWord s.W (lowHalf p)) (zextWord s.W (highHalf p)) false

/-- WDIV (R114): the zero divisor is checked before the overflow (60_exceptions.md R302). -/
def execWdiv (s : State) : Result :=
  s.requireNonzero (lowWord s.X2) .x2 <|
  s.requireBelow (lowWord s.X0) (lowWord s.X2) <|
  let r := divWide (lowWord s.X0) (lowWord s.X1) (lowWord s.X2)
  s.respond (zextWord s.W r.1) (zextWord s.W r.2) false

/-- WCLZ (R115). -/
def execWclz (s : State) : Result := s.respond0 (BitVec.ofNat s.W (leadingZeros (lowWord s.X0)))

end Sys2Proof.Machine
end

