-- ==== Sys2Proof/Machine/Dispatch.lean ====
section
/-! DEFINITION. One arm per command (30_encoding.md R86). -/

namespace Sys2Proof.Machine

def exec (i : Instr) (s : State) : Host.Outcome State Fault Refusal :=
  match i with
  | .wadc => Sys2Proof.Machine.execWadc s
  | .wsbc => Sys2Proof.Machine.execWsbc s
  | .wmul => Sys2Proof.Machine.execWmul s
  | .wdiv => Sys2Proof.Machine.execWdiv s
  | .wclz => Sys2Proof.Machine.execWclz s
  | .add => Sys2Proof.Machine.execAdd s
  | .sub => Sys2Proof.Machine.execSub s
  | .adc => Sys2Proof.Machine.execAdc s
  | .sbc => Sys2Proof.Machine.execSbc s
  | .neg => Sys2Proof.Machine.execNeg s
  | .mul => Sys2Proof.Machine.execMul s
  | .mulw => Sys2Proof.Machine.execMulw s
  | .mulhi => Sys2Proof.Machine.execMulhi s
  | .mulhia => Sys2Proof.Machine.execMulhia s
  | .divremu alg => Sys2Proof.Machine.execDivremu alg s
  | .divrems alg => Sys2Proof.Machine.execDivrems alg s
  | .divw => Sys2Proof.Machine.execDivw s
  | .recip => Sys2Proof.Machine.execRecip s
  | .divr => Sys2Proof.Machine.execDivr s
  | .bitAnd => Sys2Proof.Machine.execAnd s
  | .bitOr => Sys2Proof.Machine.execOr s
  | .bitXor => Sys2Proof.Machine.execXor s
  | .bitNot => Sys2Proof.Machine.execNot s
  | .shl => Sys2Proof.Machine.execShl s
  | .shr => Sys2Proof.Machine.execShr s
  | .sar => Sys2Proof.Machine.execSar s
  | .clz => Sys2Proof.Machine.execClz s
  | .cmpu => Sys2Proof.Machine.execCmpu s
  | .cmps => Sys2Proof.Machine.execCmps s
  | .extz m => Sys2Proof.Machine.execExtz m s
  | .exts m => Sys2Proof.Machine.execExts m s
  | .pow => Sys2Proof.Machine.execPow s
  | .powm => Sys2Proof.Machine.execPowm s
  | .gcd => Sys2Proof.Machine.execGcd s
  | .minit => Sys2Proof.Machine.execMinit s
  | .mreduce => Sys2Proof.Machine.execMreduce s
  | .mmul => Sys2Proof.Machine.execMmul s
  | .mpow => Sys2Proof.Machine.execMpow s
  | .mto => Sys2Proof.Machine.execMto s
  | .mfrom => Sys2Proof.Machine.execMfrom s

end Sys2Proof.Machine
end

