-- ==== Sys2Proof/Machine/Step.lean ====
section
/-! DEFINITION. One step: the unit takes the host's next event (70_reset_and_hazards.md R350), and where a word stands
so that the next step runs it. -/

namespace Sys2Proof.Machine

/-- One step. With nothing to do the unit waits (70 R341). Reset is always taken (R340). A command is accepted only while
`FAULT = NONE`; a latched unit accepts none, and the run stops with what it shows (60_exceptions.md R303, 70 R355, log 9).
An accepted command is decoded before anything of it is read (R302) and runs as one atomic step (70 R350). -/
def step (s : State) : Host.Outcome State Fault Refusal :=
  match s.stream with
  | [] => .next s
  | .reset :: rest => .next (s.applyReset rest)
  | .command c :: rest =>
    if s.fault = .none then
      match decode s.W c.word with
      | .ok i => exec i (s.accept c rest)
      | .error _ => (s.accept c rest).raise (.illegalCommand c.word)
    else .fault (.latched s.j s.observation)

/-- `s` with the host about to present the command word among the low `nbits` bits of `w`, with the operand slots `s`
shows: the unit fetches nothing, so the word stands at the head of the host's stream (10_state.md R32, log 2). -/
def State.withFetchWord (s : State) (nbits w : Nat) : State :=
  s.withEvent (.command { s.cmd with word := tableWord nbits w })

end Sys2Proof.Machine
end

