-- ==== Sys2Proof/Machine/Asm.lean ====
section
/-! DEFINITION. Assembler lines and pseudo-commands (30_encoding.md R91, R92), as structured data: a mnemonic, a suffix and
the slots' values (log 18). -/

namespace Sys2Proof.Machine

/-- A slot's value as a line gives it (R91). -/
inductive AsmValue where
  /-- hexadecimal or decimal -/
  | nat (n : Nat)
  /-- a negative decimal `-d` -/
  | neg (d : Nat)
  deriving DecidableEq, Repr

/-- `-d` means `bits_W(-d)` (R91, 00_scope.md R13). DESIGN CHOICE (log 24): R91 gives a `W`-bit value and does not say what a
number of `2^W` or more means; it is taken modulo `2^W`. -/
def AsmValue.bits (W : Nat) : AsmValue → BitVec W
  | .nat n => BitVec.ofNat W n
  | .neg d => BitVec.ofInt W (-d)

/-- The suffix: `.k` on DIVREMU and DIVREMS, the source width on EXTZ and EXTS (R91). -/
inductive AsmSuffix where
  | k
  | width (m : Nat)
  deriving DecidableEq, Repr

structure AsmLine where
  mnemonic : String
  suffix : Option AsmSuffix
  x0 : Option AsmValue
  x1 : Option AsmValue
  x2 : Option AsmValue
  x3 : Option AsmValue
  deriving DecidableEq, Repr

/-- The mnemonic of 30_encoding.md R86. -/
def mnemonicOf : Instr → String
  | .wadc => "WADC"
  | .wsbc => "WSBC"
  | .wmul => "WMUL"
  | .wdiv => "WDIV"
  | .wclz => "WCLZ"
  | .add => "ADD"
  | .sub => "SUB"
  | .adc => "ADC"
  | .sbc => "SBC"
  | .neg => "NEG"
  | .mul => "MUL"
  | .mulw => "MULW"
  | .mulhi => "MULHI"
  | .mulhia => "MULHIA"
  | .divremu _ => "DIVREMU"
  | .divrems _ => "DIVREMS"
  | .divw => "DIVW"
  | .recip => "RECIP"
  | .divr => "DIVR"
  | .bitAnd => "AND"
  | .bitOr => "OR"
  | .bitXor => "XOR"
  | .bitNot => "NOT"
  | .shl => "SHL"
  | .shr => "SHR"
  | .sar => "SAR"
  | .clz => "CLZ"
  | .cmpu => "CMPU"
  | .cmps => "CMPS"
  | .extz _ => "EXTZ"
  | .exts _ => "EXTS"
  | .pow => "POW"
  | .powm => "POWM"
  | .gcd => "GCD"
  | .minit => "MINIT"
  | .mreduce => "MREDUCE"
  | .mmul => "MMUL"
  | .mpow => "MPOW"
  | .mto => "MTO"
  | .mfrom => "MFROM"

/-- The suffix of 30_encoding.md R91. -/
def suffixOf : Instr → Option AsmSuffix
  | .divremu .exact => some .k
  | .divrems .exact => some .k
  | .extz m => some (.width (sourceWidth m))
  | .exts m => some (.width (sourceWidth m))
  | _ => none

/-- The instructions without a free field. -/
def plainInstrs : List Instr :=
  [.wadc, .wsbc, .wmul, .wdiv, .wclz, .add, .sub, .adc, .sbc, .neg, .mul, .mulw, .mulhi, .mulhia, .divw, .recip, .divr,
   .bitAnd, .bitOr, .bitXor, .bitNot, .shl, .shr, .sar, .clz, .cmpu, .cmps, .pow, .powm, .gcd,
   .minit, .mreduce, .mmul, .mpow, .mto, .mfrom]

/-- The divisions, with both values of `ALG`. -/
def divisionInstrs : List Instr :=
  [.divremu .reciprocal, .divremu .exact, .divrems .reciprocal, .divrems .exact]

/-- The width codes `M = 0` to `15`. -/
def widthCodes : List (BitVec 4) := (List.range 16).map (BitVec.ofNat 4)

/-- Every instruction, with every value of its free field. -/
def allInstrs : List Instr :=
  List.append plainInstrs (List.append divisionInstrs
    (List.append (widthCodes.map Instr.extz) (widthCodes.map Instr.exts)))

/-- The instruction a mnemonic and a suffix name. -/
def asmInstr (mnemonic : String) (suffix : Option AsmSuffix) : Option Instr :=
  allInstrs.find? fun i => mnemonicOf i == mnemonic && suffixOf i == suffix

/-- "A slot the text omits is 0" (R91). -/
def asmSlot (W : Nat) (v : Option AsmValue) : BitVec W := (v.map (AsmValue.bits W)).getD 0

/-- The command of a line: the instruction's word, then the four slots (R91). -/
def assemble (W : Nat) (line : AsmLine) : Option (Command W) :=
  (asmInstr line.mnemonic line.suffix).map fun i =>
    ⟨encode i, asmSlot W line.x0, asmSlot W line.x1, asmSlot W line.x2, asmSlot W line.x3⟩

/-- The pseudo-commands (30_encoding.md R92). -/
inductive Pseudo where
  | trunc (m : BitVec 4)
  | divu
  | remu
  | divs
  | rems
  | inc
  | dec
  | isneg
  | iszero
  deriving DecidableEq, Repr

/-- The command a pseudo-command expands to: its row's instruction, `x0 = a`, and `x1 = b` or the row's constant. -/
def Pseudo.expand {W : Nat} (p : Pseudo) (a b : BitVec W) : Command W :=
  match p with
  | .trunc m => ⟨encode (.extz m), a, 0, 0, 0⟩
  | .divu => ⟨encode (.divremu .reciprocal), a, b, 0, 0⟩
  | .remu => ⟨encode (.divremu .reciprocal), a, b, 0, 0⟩
  | .divs => ⟨encode (.divrems .reciprocal), a, b, 0, 0⟩
  | .rems => ⟨encode (.divrems .reciprocal), a, b, 0, 0⟩
  | .inc => ⟨encode .add, a, 1, 0, 0⟩
  | .dec => ⟨encode .sub, a, 1, 0, 0⟩
  | .isneg => ⟨encode .cmps, a, 0, 0, 0⟩
  | .iszero => ⟨encode .cmpu, a, 0, 0, 0⟩

/-- What a pseudo-command reads back of the response: the remainder is `Y1`, everything else `Y0` (R92). -/
def Pseudo.readBack {W : Nat} (p : Pseudo) (r : Response W) : BitVec W :=
  match p with
  | .remu | .rems => r.y1
  | .trunc _ | .divu | .divs | .inc | .dec | .isneg | .iszero => r.y0

end Sys2Proof.Machine
end

