-- ==== Sys2Proof/Machine/Image.lean ====
section
/-! DEFINITION. The memory image of an operand (20_memory.md R60 to R63). The unit has no memory (10_state.md R31): these
are the functions by which a host stores a value and loads it back (log 15). -/

namespace Sys2Proof.Machine

/-- Byte `i` of a value, bits `[8i+7 : 8i]` (20_memory.md R60). -/
def byteAt {N : Nat} (v : BitVec N) (i : Nat) : Byte := v.extractLsb' (8 * i) 8

/-- The 64-bit word at byte offset `8j`, bits `[64j+63 : 64j]` (20_memory.md R60, R63). -/
def wordOf {N : Nat} (v : BitVec N) (i : Nat) : Word := v.extractLsb' (64 * i) 64

/-- The image: exactly `N/8` bytes, the least significant first (20_memory.md R60). -/
def image {N : Nat} (v : BitVec N) : List Byte := (List.range (N / 8)).map (byteAt v)

/-- The image of a `2W`-bit result: `Y[0]` in the lower bytes, `Y[1]` in the upper (20_memory.md R62). -/
def imagePair {N : Nat} (y1 y0 : BitVec N) : List Byte := image (y1 ++ y0)

/-- The number a list of bytes stands for, the least significant first. -/
def bytesToNat : List Byte → Nat
  | [] => 0
  | b :: bs => b.toNat + 256 * bytesToNat bs

/-- The `N`-bit value of an image. -/
def ofImage (N : Nat) (bs : List Byte) : BitVec N := BitVec.ofNat N (bytesToNat bs)

/-- The cells of a value stored in host memory at address `a` (20_memory.md R60). -/
def imageAt {N : Nat} (a : Nat) (v : BitVec N) : List Host.Cell :=
  (List.range (N / 8)).map fun i => (a + i, byteAt v i)

end Sys2Proof.Machine
end

