-- ==== Sys2Proof/Machine/Tree.lean ====
section
/-! DEFINITION. The units as the source builds them: recursion over the two halves of a value down to one word (R130, R150,
R209, R234), Knuth's algorithm widened (R177), the one-step correction (R176), Newton and Montgomery constructions
(R272, R273), Euclid's loop (R252). None of it is observable (00_scope.md R11): the commands do not call these
functions, and statements say that each computes its command's function. -/

namespace Sys2Proof.Machine

variable {j : Nat}

/-- The low half of a value (00_scope.md R14). -/
def loPart (v : BitVec (width (j + 1))) : BitVec (width j) := v.extractLsb' 0 (width j)

/-- The high half of a value. -/
def hiPart (v : BitVec (width (j + 1))) : BitVec (width j) := v.extractLsb' (width j) (width j)

/-- A value from its halves. -/
def ofParts (hi lo : BitVec (width j)) : BitVec (width (j + 1)) := hi ++ lo

/-! ### Adder and subtractor trees (R130) -/

/-- Ripple carry through the two halves; one word at the leaves (R130). -/
def adcTree : (j : Nat) → Bool → BitVec (width j) → BitVec (width j) → BitVec (width j) × Bool
  | 0, c, a, b => addCarry c a b
  | j + 1, c, a, b =>
    let l := adcTree j c (loPart a) (loPart b)
    let h := adcTree j l.2 (hiPart a) (hiPart b)
    (ofParts h.1 l.1, h.2)

/-- Ripple borrow through the two halves (R130). -/
def sbcTree : (j : Nat) → Bool → BitVec (width j) → BitVec (width j) → BitVec (width j) × Bool
  | 0, c, a, b => subBorrow c a b
  | j + 1, c, a, b =>
    let l := sbcTree j c (loPart a) (loPart b)
    let h := sbcTree j l.2 (hiPart a) (hiPart b)
    (ofParts h.1 l.1, h.2)

/-! ### Multiplier tree (R150) -/

/-- Word `i` of a value, as a number (20_memory.md R60). -/
def wordAt (v i : Nat) : Nat := v / 2 ^ (64 * i) % 2 ^ 64

/-- Schoolbook: every word product added at its place, `n` words a side (R150). PRESUMED (log 20): the sum written out. -/
def schoolbook (n a b : Nat) : Nat :=
  ((List.range n).map fun p => ((List.range n).map fun q =>
    wordAt a p * wordAt b q * 2 ^ (64 * (p + q))).sum).sum

/-- Karatsuba's combination: three sub-products, the middle one from the sums of the halves with their carries
(R150). `h` is the half width, `mulH` the half-width product. PRESUMED (log 20): how the carries enter the middle product. -/
def karatsuba (h : Nat) (mulH : Nat → Nat → Nat) (a b : Nat) : Nat :=
  let ah := a / 2 ^ h
  let al := a % 2 ^ h
  let bh := b / 2 ^ h
  let bl := b % 2 ^ h
  let z0 := mulH al bl
  let z2 := mulH ah bh
  let sa := ah + al
  let sb := bh + bl
  let ca := sa / 2 ^ h
  let cb := sb / 2 ^ h
  let mid := mulH (sa % 2 ^ h) (sb % 2 ^ h) + (ca * (sb % 2 ^ h) + cb * (sa % 2 ^ h)) * 2 ^ h + ca * cb * 2 ^ (2 * h)
  z2 * 2 ^ (2 * h) + (mid - z0 - z2) * 2 ^ h + z0

/-- The full product of two values of `width j` bits, by the algorithm `large` picks at each width (R150; DESIGN CHOICE,
log 20: the threshold is not given, so `large` is free), with the fast paths for a zero operand and for two all-ones
operands. -/
def mulTree (large : Nat → Bool) : Nat → Nat → Nat → Nat
  | 0, a, b => a * b
  | j + 1, a, b =>
    if a = 0 ∨ b = 0 then 0
    else if a = 2 ^ width (j + 1) - 1 ∧ b = 2 ^ width (j + 1) - 1 then
      (2 ^ width (j + 1) - 2) * 2 ^ width (j + 1) + 1
    else if large (j + 1) then karatsuba (width j) (mulTree large j) a b
    else schoolbook (width (j + 1) / 64) a b

/-- The truncated product: three half-width full products, what overflows the width dropped (R150). -/
def mulTruncTree (large : Nat → Bool) (j a b : Nat) : Nat :=
  let h := width j
  let al := a % 2 ^ h
  let bl := b % 2 ^ h
  (mulTree large j al bl + (mulTree large j (a / 2 ^ h) bl + mulTree large j al (b / 2 ^ h)) * 2 ^ h) % 2 ^ width (j + 1)

/-! ### Bitwise, shifts, leading zeros (R209) -/

/-- A bitwise operation per half (R209). -/
def bitwiseTree (op : Word → Word → Word) : (j : Nat) → BitVec (width j) → BitVec (width j) → BitVec (width j)
  | 0, a, b => op a b
  | j + 1, a, b => ofParts (bitwiseTree op j (hiPart a) (hiPart b)) (bitwiseTree op j (loPart a) (loPart b))

/-- Right shift through the halves: an amount of at least the half width moves a half across the boundary, a smaller one
combines the bits shifted out of the high half into the low one (R209). -/
def shrTree : (j : Nat) → BitVec (width j) → Nat → BitVec (width j)
  | 0, v, sh => shiftRight v sh
  | j + 1, v, sh =>
    if width j ≤ sh then ofParts 0 (shrTree j (hiPart v) (sh - width j))
    else ofParts (shrTree j (hiPart v) sh) (shrTree j (loPart v) sh ||| shiftLeft (hiPart v) (width j - sh))

/-- Left shift through the halves (R209). -/
def shlTree : (j : Nat) → BitVec (width j) → Nat → BitVec (width j)
  | 0, v, sh => shiftLeft v sh
  | j + 1, v, sh =>
    if width j ≤ sh then ofParts (shlTree j (loPart v) (sh - width j)) 0
    else ofParts (shlTree j (hiPart v) sh ||| shiftRight (loPart v) (width j - sh)) (shlTree j (loPart v) sh)

/-- Arithmetic right shift through the halves: as the logical one, but what moves in from above is sign bits (R207, R209).
DEDUCED (log 20): R209 says this of shifts as a whole; that the sign bits fill the high half is R207's. -/
def sarTree : (j : Nat) → BitVec (width j) → Nat → BitVec (width j)
  | 0, v, sh => shiftRightArith v sh
  | j + 1, v, sh =>
    if width j ≤ sh then
      ofParts (if v.msb then BitVec.ofInt (width j) (-1) else 0) (sarTree j (hiPart v) (sh - width j))
    else ofParts (sarTree j (hiPart v) sh) (shrTree j (loPart v) sh ||| shiftLeft (hiPart v) (width j - sh))

/-- `clz` recurses into the high half, adding the half width where that half is 0 (R209). -/
def clzTree : (j : Nat) → BitVec (width j) → Nat
  | 0, v => leadingZeros v
  | j + 1, v => if hiPart v ≠ 0 then clzTree j (hiPart v) else width j + clzTree j (loPart v)

/-! ### Comparator (R234) -/

/-- "lexicographic compare of (high, low)" (R234). -/
def compareTree : (j : Nat) → BitVec (width j) → BitVec (width j) → Ordering
  | 0, a, b => compareU a b
  | j + 1, a, b =>
    match compareTree j (hiPart a) (hiPart b) with
    | .eq => compareTree j (loPart a) (loPart b)
    | o => o

/-- The value with its sign bit inverted (R234). -/
def flipSign {N : Nat} (v : BitVec N) : BitVec N := v ^^^ BitVec.twoPow N (N - 1)

/-! ### Division (R172, R176, R177) -/

/-- `abs_W` of R172: the value, negated where its sign bit is set. -/
def absBits {N : Nat} (v : BitVec N) : BitVec N := if v.msb then (subBorrow false 0 v).1 else v

/-- Negate where asked. -/
def negateIf {N : Nat} (b : Bool) (v : BitVec N) : BitVec N := if b then (subBorrow false 0 v).1 else v

/-- Signed division as the source builds it: divide absolute values, reattach the signs (R172). -/
def divRemByAbs {N : Nat} (a d : BitVec N) : BitVec N × BitVec N :=
  let r := divRemU (absBits a) (absBits d)
  (negateIf (xor a.msb d.msb) r.1, negateIf a.msb r.2)

/-- The single ±1 correction of an approximate quotient, by comparing the candidate remainder with the divisor (R176). -/
def correctQuotient (a d q : Nat) : Nat × Nat :=
  if a < q * d then (q - 1, a - (q - 1) * d)
  else if d ≤ a - q * d then (q + 1, a - (q + 1) * d)
  else (q, a - q * d)

/-- An estimate of a quotient digit lowered by at most 2, by trial multiply and compare (R177). -/
def lowerEstimate (n d q : Nat) : Nat :=
  if q * d ≤ n then q else if (q - 1) * d ≤ n then q - 1 else q - 2

/-- One quotient digit of `h` bits: the remainder so far `r`, the numerator's next digit, a divisor of `2h` bits whose top
bit is set; estimated from the top two digits by the half-width division `divH` (R177). PRESUMED (log 20): the details of the
digit. -/
def knuthDigit (h : Nat) (divH : Nat → Nat → Nat → Nat × Nat) (r next d : Nat) : Nat × Nat :=
  let estimate := if d / 2 ^ h ≤ r / 2 ^ h then 2 ^ h - 1 else (divH (r / 2 ^ h) (r % 2 ^ h) (d / 2 ^ h)).1
  let q := lowerEstimate (r * 2 ^ h + next) d estimate
  (q, r * 2 ^ h + next - q * d)

/-- The exact algorithm widened: a `2W`-bit numerator `{nh, nl}` by a `W`-bit divisor, `W = width j`, for `nh < d`
(R177): normalise until the divisor's top bit is set, two quotient digits of half the width, denormalise. -/
def knuthDiv : (j : Nat) → Nat → Nat → Nat → Nat × Nat
  | 0, nh, nl, d => ((nh * 2 ^ 64 + nl) / d, (nh * 2 ^ 64 + nl) % d)
  | j + 1, nh, nl, d =>
    let h := width j
    let norm := width (j + 1) - 1 - d.log2
    let dn := d * 2 ^ norm
    let n := (nh * 2 ^ width (j + 1) + nl) * 2 ^ norm
    let hi := knuthDigit h (knuthDiv j) (n / 2 ^ width (j + 1)) (n / 2 ^ h % 2 ^ h) dn
    let lo := knuthDigit h (knuthDiv j) hi.2 (n % 2 ^ h) dn
    (hi.1 * 2 ^ h + lo.1, lo.2 / 2 ^ norm)

/-! ### Powers, gcd, Montgomery (R252, R273, R275) -/

/-- Euclid's loop, at most `fuel` rounds (R252). -/
def euclid : Nat → Nat → Nat → Nat
  | 0, x, _ => x
  | fuel + 1, x, y => if y = 0 then x else euclid fuel y (x % y)

/-- Montgomery reduction with the stored inverse: `m <- (T * ninv) rem 2^N`, `t <- (T - m * n) / 2^N`, `n` added where `t`
is negative. PRESUMED (log 11): R273 gives this construction "[from general knowledge, not in source]" (93 row G3). -/
def reduceByInverse (N n ninv T : Nat) : Int :=
  let m := T * ninv % 2 ^ N
  let t : Int := ((T : Int) - m * n) / 2 ^ N
  if t < 0 then t + n else t

/-- Square and multiply within Montgomery form, from `MCTX.one` (R275): `fuel` bits of the exponent. -/
def montPowLoop (N n : Nat) : Nat → Nat → Nat → Nat → Nat
  | 0, r, _, _ => r
  | fuel + 1, r, b, e =>
    montPowLoop N n fuel (if e % 2 = 1 then montReduce N n (r * b) else r) (montReduce N n (b * b)) (e / 2)

end Sys2Proof.Machine
end

