-- ==== Sys2Proof/Safety.lean ====
section
/-! DEFINITION. What claims are stated in: the end of a run, the invariant of a unit, the slots a
command reads, the interleavings of several agents. -/

namespace Sys2Proof.Machine

/-- `MCTX` holds the context of its modulus whenever it is valid (10_state.md R36, the content column). -/
def Mctx.Holds {W : Nat} (m : Mctx W) : Prop :=
  m.valid = true →
    m.n.toNat % 2 = 1 ∧
    m.n.toNat * m.ninv.toNat % 2 ^ W = 1 ∧
    m.recip = Config.recipFn W m.n ∧
    m.one.toNat = 2 ^ W % m.n.toNat

/-- The invariant of a unit: its context is sound. -/
def State.Inv (s : State) : Prop := s.mctx.Holds

/-- The run ended well: every command accepted and answered, and no fault (70_reset_and_hazards.md R355). -/
def State.EndedWell (s : State) : Prop := s.stream = [] ∧ s.fault = .none

/-- The run ended badly: a command faulted (70_reset_and_hazards.md R355). -/
def State.EndedBadly (s : State) : Prop := s.fault ≠ .none

/-- The slots a command reads, the column `reads` of 30_encoding.md R86. -/
def reads : Instr → List Slot
  | .wadc | .wsbc | .wdiv => [.x0, .x1, .x2]
  | .wmul => [.x0, .x1]
  | .wclz => [.x0]
  | .add | .sub => [.x0, .x1]
  | .adc | .sbc => [.x0, .x1, .x2]
  | .neg => [.x0]
  | .mul | .mulw | .mulhi | .mulhia => [.x0, .x1]
  | .divremu _ | .divrems _ => [.x0, .x1]
  | .divw => [.x0, .x1, .x2]
  | .recip => [.x0]
  | .divr => [.x0, .x1, .x2, .x3]
  | .bitAnd | .bitOr | .bitXor => [.x0, .x1]
  | .bitNot => [.x0]
  | .shl | .shr | .sar => [.x0, .x1]
  | .clz => [.x0]
  | .cmpu | .cmps => [.x0, .x1]
  | .extz _ | .exts _ => [.x0]
  | .pow => [.x0, .x1]
  | .powm => [.x0, .x1, .x2]
  | .gcd => [.x0, .x1]
  | .minit => [.x0]
  | .mreduce | .mmul | .mpow => [.x0, .x1]
  | .mto | .mfrom => [.x0]

/-- The Montgomery commands that read `MCTX` (47_montgomery.md R271). -/
def readsContext : Instr → Bool
  | .mreduce | .mmul | .mpow | .mto | .mfrom => true
  | .wadc | .wsbc | .wmul | .wdiv | .wclz | .add | .sub | .adc | .sbc | .neg => false
  | .mul | .mulw | .mulhi | .mulhia | .divremu _ | .divrems _ | .divw | .recip | .divr => false
  | .bitAnd | .bitOr | .bitXor | .bitNot | .shl | .shr | .sar | .clz | .cmpu | .cmps => false
  | .extz _ | .exts _ | .pow | .powm | .gcd | .minit => false

/-- A slot of a command. -/
def Command.slot {W : Nat} (c : Command W) : Slot → BitVec W
  | .x0 => c.x0
  | .x1 => c.x1
  | .x2 => c.x2
  | .x3 => c.x3

/-- The same unit with these operand slots presented. -/
def State.present (s : State) (x0 x1 x2 x3 : BitVec s.W) : State :=
  { s with cmd := ⟨s.cmd.word, x0, x1, x2, x3⟩ }

/-- The command completes with the response `Y[0] = y0`, `Y[1] = y1`, `F = f`, and changes nothing else. -/
def Answers (i : Instr) (s : State) (y0 y1 : BitVec s.W) (f : Bool) : Prop :=
  exec i s = .next { s with responses := ⟨y0, y1, f⟩ :: s.responses }

/-- The command completes with `Y[0]` alone, `Y[1]` and `F` zero, and changes nothing else. -/
def Returns (i : Instr) (s : State) (y0 : BitVec s.W) : Prop := Answers i s y0 0 false

/-- The command faults: `FAULT` is set to `r`, and nothing else changes (60_exceptions.md R303). -/
def Faults (i : Instr) (s : State) (r : FaultLatch s.W) : Prop := exec i s = .next { s with fault := r }

/-- `rinv` is `Rinv` of 47_montgomery.md R270 for the modulus `n` at width `W`. -/
def IsRadixInverse (W n rinv : Nat) : Prop := rinv < n ∧ 2 ^ W * rinv % n = 1 % n

/-- A command that is a pure function of its slots and completes: it decodes, neither reads nor writes `MCTX`, does not
fault and takes no draw (20_memory.md R69); `Answers` says the last two. -/
def PureCommand (j : Nat) (c : Command (width j)) : Prop :=
  ∃ i y0 y1 f, decode (width j) c.word = .ok i ∧ readsContext i = false ∧ i ≠ .minit ∧
    Answers i { State.resetAt j with cmd := c } y0 y1 f

/-- `es` is an interleaving of the agents' streams that keeps each agent's own order (20_memory.md R69). -/
inductive Interleaving {α : Type} : List (List α) → List α → Prop where
  | done {agents : List (List α)} : (∀ a ∈ agents, a = []) → Interleaving agents []
  | accept {before after : List (List α)} {e : α} {own es : List α} :
      Interleaving (before ++ own :: after) es → Interleaving (before ++ (e :: own) :: after) (e :: es)

end Sys2Proof.Machine
end

