-- ==== Sys2Proof/Certificates/Slice0/Obligations.lean ====
section
/-! DEFINITION. The statements for the provers. A command's result statement says the whole next state: the record update
is its frame. -/

open Sys2Proof Sys2Proof.Machine

/-! ### Encoding -/

/-- Words written out from 30_encoding.md R81 and R86, fields `RSV M ALG S OPC`; the source of 128 bits is too wide for a
unit of 64 (R85). -/
def Obligations.SampleWordsDecode : Prop :=
  decode 128 0b00_0000_0_0_00000001#16 = .ok .wadc ∧
  decode 128 0b00_0000_0_0_00010011#16 = .ok .sbc ∧
  decode 128 0b00_0000_0_0_00100011#16 = .ok .mulhia ∧
  decode 128 0b00_0000_1_1_00110000#16 = .ok (.divrems .exact) ∧
  decode 128 0b00_0000_0_1_01001001#16 = .ok .sar ∧
  decode 128 0b00_0100_0_1_01010100#16 = .ok (.exts 4) ∧
  decode 128 0b00_0000_0_0_01100010#16 = .ok .gcd ∧
  decode 128 0b00_0000_0_0_01110101#16 = .ok .mfrom ∧
  decode 64 0b00_0100_0_1_01010100#16 = .error .sourceTooWide

/-- Decoding an encoded well-formed command gives it back, at every width. -/
def Obligations.DecodeOfEncodeIsIdentity : Prop :=
  ∀ (j : Nat) (i : Instr), i.wellFormed (width j) = true → decode (width j) (encode i) = .ok i

/-- A word the decoder accepts is the word of a well-formed command, and of one command only. -/
def Obligations.AcceptedWordsAreEncodings : Prop :=
  ∀ (W : Nat) (cmd : CommandWord) (i : Instr),
    decode W cmd = .ok i → i.wellFormed W = true ∧ encode i = cmd

/-- R89: exactly the words it lists are illegal, and a unit with `FAULT = NONE` that is presented one faults
ILLEGAL_COMMAND, with no other effect. -/
def Obligations.IllegalWordsFault : Prop :=
  ∀ (s : State) (c : Command s.W) (rest : List (HostEvent s.W)),
    s.stream = .command c :: rest → s.fault = .none →
    let opc := c.word.toNat % 256
    let signed := c.word.toNat / 256 % 2 = 1
    let alg := c.word.toNat / 512 % 2 = 1
    let m := c.word.toNat / 1024 % 16
    let rsv := c.word.toNat / 16384
    let illegal :=
      rsv ≠ 0 ∨
      (opc = 0x00 ∨ 0x06 ≤ opc ∧ opc ≤ 0x0F ∨ 0x15 ≤ opc ∧ opc ≤ 0x1F ∨ 0x24 ≤ opc ∧ opc ≤ 0x2F ∨
        0x34 ≤ opc ∧ opc ≤ 0x3F ∨ 0x44 ≤ opc ∧ opc ≤ 0x47 ∨ opc = 0x4A ∨ opc = 0x4B ∨
        0x4D ≤ opc ∧ opc ≤ 0x4F ∨ 0x51 ≤ opc ∧ opc ≤ 0x53 ∨ 0x55 ≤ opc ∧ opc ≤ 0x5F ∨
        0x63 ≤ opc ∧ opc ≤ 0x6F ∨ 0x76 ≤ opc) ∨
      (signed ∧ opc ≠ 0x30 ∧ opc ≠ 0x49 ∧ opc ≠ 0x50 ∧ opc ≠ 0x54) ∨
      (alg ∧ opc ≠ 0x30) ∨
      (opc ≠ 0x54 ∧ m ≠ 0) ∨
      (opc = 0x54 ∧ s.W < 8 * 2 ^ m)
    (illegal → step s = .next { s with cmd := c, stream := rest, fault := .illegalCommand c.word }) ∧
    (¬ illegal → ∃ i, decode s.W c.word = .ok i)

/-! ### One step, reset, runs -/

/-- A presented legal command runs: step is exec of the decoded command with its word and slots presented and the command
taken from the host's stream. -/
def Obligations.StepRunsDecodedCommand : Prop :=
  ∀ (s : State) (c : Command s.W) (rest : List (HostEvent s.W)) (i : Instr),
    s.stream = .command c :: rest → s.fault = .none → decode s.W c.word = .ok i →
    step s = exec i { s with cmd := c, stream := rest }

/-- R303: a step that latches a fault took a command and changed nothing else; only reset clears the latch. That a latched
unit stops the run at the next command, with what the run shows, is log 9's reading of R303 (DEDUCED); that it waits when
nothing is presented is the model's (log 2, DESIGN CHOICE). -/
def Obligations.FaultsArePreciseAndStayLatched : Prop :=
  ∀ s : State,
    (∀ t, step s = .next t → s.fault = .none → t.fault.name ≠ .none →
      ∃ (c : Command s.W) (rest : List (HostEvent s.W)) (f : FaultLatch s.W), s.stream = .command c :: rest ∧
        t = { s with cmd := c, stream := rest, fault := f }) ∧
    (s.fault ≠ .none →
      (∀ c rest, s.stream = .command c :: rest →
        step s = .fault (.latched s.j (.bad s.fault.name s.responses.reverse))) ∧
      (∀ t, step s = .next t → t.fault.name = .none → ∃ rest, s.stream = .reset :: rest) ∧
      (s.stream = [] → step s = .next s))

/-- The host's reset at any time, latched or not: `MCTX.valid = 0`, `FAULT = NONE`, no response; nothing is said of the
other fields of `MCTX` nor of the command input. That the stream and the draws stay is the model's (log 10). -/
def Obligations.ResetClearsContextAndFault : Prop :=
  ∀ (s : State) (rest : List (HostEvent s.W)), s.stream = .reset :: rest →
    ∃ (c : Command s.W) (m : Mctx s.W), m.valid = false ∧
      step s = .next { s with cmd := c, stream := rest, responses := [], mctx := m, fault := .none }

/-- The values of R41, at every width; the reset state meets the unit's invariant. That the stream is empty and that
`State.reset` is one such state are the model's (logs 1 and 2, DESIGN CHOICE). -/
def Obligations.ResetStateValues : Prop :=
  (∀ j : Nat,
    (State.resetAt j).j = j ∧
    (State.resetAt j).mctx.valid = false ∧
    (State.resetAt j).fault = .none ∧
    (State.resetAt j).responses = [] ∧
    (State.resetAt j).stream = [] ∧
    (State.resetAt j).Inv) ∧
  ∃ j, State.reset = State.resetAt j

/-- One event at a time, in order: a step takes exactly the first event, or waits when there is none (log 2, DESIGN CHOICE);
it never changes the width, which 00_scope.md R7 makes a parameter and log 1 holds in State (DESIGN CHOICE). -/
def Obligations.StepTakesTheFirstEvent : Prop :=
  ∀ s t : State, step s = .next t →
    (s.stream = [] ∧ t = s) ∨
    ∃ e rest c rs m f d, s.stream = e :: rest ∧
      t = { j := s.j, cmd := c, stream := rest, responses := rs, mctx := m, fault := f, draws := d }

/-- No run hangs and none is refused: after as many steps as the host has events, every event has been taken, or the unit
was presented a command while latched, where the model stops with a fault and what the run shows (log 9, DEDUCED). -/
def Obligations.RunsCompleteOrLatch : Prop :=
  ∀ s : State,
    (∃ t, Sys2Proof.core.run s.stream.length s = .next t ∧ State.stream t = []) ∨
    (∃ (name : FaultName) (rs : List (Response s.W)), name ≠ FaultName.none ∧
      Sys2Proof.core.run s.stream.length s = .fault (.latched s.j (.bad name rs)))

/-- R355, on a list of commands given to a unit with `FAULT = NONE`: either every command completes, and the run shows one
response each, after those it already had, and the final `MCTX`; or the commands of `before` complete, the next one faults,
and the run shows that fault with the responses before it, and stops there if a command follows (log 9, DEDUCED). -/
def Obligations.RunsShowResponsesOrTheFault : Prop :=
  ∀ (s : State) (es : List (Command s.W)), s.stream = es.map .command → s.fault = .none →
    (∃ (c : Command s.W) (rs : List (Response s.W)) (m : Mctx s.W) (d : Nat),
      let t : State := { s with cmd := c, stream := [], responses := rs.reverse ++ s.responses, mctx := m, draws := d }
      rs.length = es.length ∧ Sys2Proof.core.run es.length s = .next t ∧
      t.EndedWell ∧ t.observation = .good (s.responses.reverse ++ rs) m) ∨
    (∃ (before after : List (Command s.W)) (c : Command s.W) (f : FaultLatch s.W)
        (rs : List (Response s.W)) (m : Mctx s.W) (d : Nat),
      let t : State := { s with
        cmd := c, stream := after.map .command, responses := rs.reverse ++ s.responses, mctx := m, fault := f, draws := d }
      let observed : Observation s.W := .bad f.name (s.responses.reverse ++ rs)
      es = before ++ c :: after ∧ rs.length = before.length ∧
      Sys2Proof.core.run (before.length + 1) s = .next t ∧
      t.EndedBadly ∧ t.observation = observed ∧
      (after ≠ [] → Sys2Proof.core.run es.length s = .fault (.latched s.j observed)))

/-- Every command, in every state, either faults and sets only `FAULT`, or returns one response; only MINIT writes `MCTX`;
at most two draws are taken. -/
def Obligations.EveryCommandFaultsOrResponds : Prop :=
  ∀ (i : Instr) (s : State),
    (∃ r : FaultLatch s.W, r ≠ .none ∧ Faults i s r) ∨
    ∃ (r : Response s.W) (m : Mctx s.W) (k : Nat),
      exec i s = .next { s with responses := r :: s.responses, mctx := m, draws := s.draws + k } ∧
      (i ≠ .minit → m = s.mctx) ∧ k ≤ 2

/-! ### Faults -/

/-- R300: the commands fault in exactly the cases of its table, in the priority of R302, under its codes, and record what
the table says. -/
def Obligations.CommandsFaultInExactlyTheseCases : Prop :=
  ∀ (i : Instr) (s : State),
    let zero (v : BitVec s.W) := v.toNat = 0
    let low (v : BitVec s.W) := v.toNat % 2 ^ 64
    let noContext := readsContext i = true ∧ s.mctx.valid = false
    let evenModulus := i = .minit ∧ s.X0.toNat % 2 = 0
    let zero0 := i = .recip ∧ zero s.X0
    let zero1 := ((∃ a, i = .divremu a) ∨ (∃ a, i = .divrems a) ∨ i = .divr) ∧ zero s.X1
    let zero2 := (i = .divw ∨ i = .powm) ∧ zero s.X2 ∨ i = .wdiv ∧ low s.X2 = 0
    let overflow := i = .divw ∧ ¬ zero s.X2 ∧ s.X2.toNat ≤ s.X0.toNat ∨
      i = .wdiv ∧ low s.X2 ≠ 0 ∧ low s.X2 ≤ low s.X0
    (noContext → Faults i s (.noContext s.cmd.word)) ∧
    (evenModulus → Faults i s (.evenModulus s.cmd.word s.X0)) ∧
    (zero0 → Faults i s (.divideByZero s.cmd.word .x0)) ∧
    (zero1 → Faults i s (.divideByZero s.cmd.word .x1)) ∧
    (zero2 → Faults i s (.divideByZero s.cmd.word .x2)) ∧
    (overflow → Faults i s (.divideOverflow s.cmd.word)) ∧
    (¬ noContext → ¬ evenModulus → ¬ zero0 → ¬ zero1 → ¬ zero2 → ¬ overflow →
      ∃ (r : Response s.W) (m : Mctx s.W) (k : Nat),
        exec i s = .next { s with responses := r :: s.responses, mctx := m, draws := s.draws + k }) ∧
    (∀ (c : Command s.W) (rest : List (HostEvent s.W)) (e : DecodeError),
      s.stream = .command c :: rest → s.fault = .none → decode s.W c.word = .error e →
      step s = .next { s with cmd := c, stream := rest, fault := .illegalCommand c.word }) ∧
    (∀ (w : CommandWord) (v : BitVec s.W) (x : Slot),
      (FaultLatch.none : FaultLatch s.W).name.code = 0 ∧
      (FaultLatch.illegalCommand w : FaultLatch s.W).name.code = 1 ∧
      (FaultLatch.noContext w : FaultLatch s.W).name.code = 2 ∧
      (FaultLatch.evenModulus w v).name.code = 3 ∧
      (FaultLatch.divideByZero w x : FaultLatch s.W).name.code = 4 ∧
      (FaultLatch.divideOverflow w : FaultLatch s.W).name.code = 5)

/-- R301: a Montgomery command without a context faults NO_CONTEXT, whatever the other fields of `MCTX` and the slots
hold; so does one right after reset. -/
def Obligations.MontgomeryCommandsNeedAContext : Prop :=
  (∀ (i : Instr) (s : State) (m : Mctx s.W), readsContext i = true → m.valid = false →
    Faults i { s with mctx := m } (.noContext s.cmd.word)) ∧
  ∀ (j : Nat) (i : Instr) (c : Command (width j)), readsContext i = true →
    Faults i { State.resetAt j with cmd := c } (.noContext c.word)

/-! ### The Montgomery context as state -/

/-- The context invariant is kept by every step, from every state that meets it. -/
def Obligations.StepKeepsContextInvariant : Prop :=
  ∀ s t : State, s.Inv → step s = .next t → t.Inv

/-- R37: `MCTX` is written only as a whole, by a MINIT that does not fault, all five fields at once; reset apart, nothing
else changes any field of it. -/
def Obligations.OnlyMinitWritesContext : Prop :=
  ∀ s t : State, step s = .next t →
    (∃ c es rs f d, t = { s with cmd := c, stream := es, responses := rs, fault := f, draws := d }) ∨
    (∃ rest, s.stream = .reset :: rest) ∨
    (∃ (c : Command s.W) (rest : List (HostEvent s.W)) (m : Mctx s.W) (r : Response s.W),
      s.stream = .command c :: rest ∧ c.word = 0x0070#16 ∧ c.x0.toNat % 2 = 1 ∧
      m.valid = true ∧ m.n = c.x0 ∧ c.x0.toNat * m.ninv.toNat % 2 ^ s.W = 1 ∧
      m.recip = Config.recipFn s.W c.x0 ∧ m.one.toNat = 2 ^ s.W % c.x0.toNat ∧
      t = { s with cmd := c, stream := rest, mctx := m, responses := r :: s.responses })

/-! ### Word primitives -/

/-- R111, R112. -/
def Obligations.WordAddAndSubtract : Prop :=
  ∀ s : State,
    let a := s.X0.toNat % 2 ^ 64
    let b := s.X1.toNat % 2 ^ 64
    let c := s.X2.toNat % 2
    decode s.W 0x0001#16 = .ok .wadc ∧
    Answers .wadc s (BitVec.ofNat s.W ((a + b + c) % 2 ^ 64)) 0 (decide (2 ^ 64 ≤ a + b + c)) ∧
    decode s.W 0x0002#16 = .ok .wsbc ∧
    Answers .wsbc s (BitVec.ofNat s.W (((a : Int) - b - c) % 2 ^ 64).toNat) 0 (decide ((a : Int) - b - c < 0))

/-- R113: `{Y[1], Y[0]}` word by word is the 128-bit product. -/
def Obligations.WordMultiply : Prop :=
  ∀ s : State,
    let p := (s.X0.toNat % 2 ^ 64) * (s.X1.toNat % 2 ^ 64)
    decode s.W 0x0003#16 = .ok .wmul ∧
    Answers .wmul s (BitVec.ofNat s.W (p % 2 ^ 64)) (BitVec.ofNat s.W (p / 2 ^ 64)) false

/-- R114, its two faults among it. -/
def Obligations.WordDivide : Prop :=
  ∀ s : State,
    let nh := s.X0.toNat % 2 ^ 64
    let nl := s.X1.toNat % 2 ^ 64
    let d := s.X2.toNat % 2 ^ 64
    decode s.W 0x0004#16 = .ok .wdiv ∧
    (d = 0 → Faults .wdiv s (.divideByZero s.cmd.word .x2)) ∧
    (d ≠ 0 → d ≤ nh → Faults .wdiv s (.divideOverflow s.cmd.word)) ∧
    (nh < d →
      Answers .wdiv s (BitVec.ofNat s.W ((nh * 2 ^ 64 + nl) / d)) (BitVec.ofNat s.W ((nh * 2 ^ 64 + nl) % d)) false ∧
      (nh * 2 ^ 64 + nl) / d < 2 ^ 64)

/-- R115 and R208: the count is the width for 0, and `width - 1 - k` for a value whose top set bit is `k`. -/
def Obligations.LeadingZeroCounts : Prop :=
  ∀ s : State,
    decode s.W 0x0005#16 = .ok .wclz ∧ decode s.W 0x004C#16 = .ok .clz ∧
    (s.X0.toNat % 2 ^ 64 = 0 → Returns .wclz s (BitVec.ofNat s.W 64)) ∧
    (∀ k, 2 ^ k ≤ s.X0.toNat % 2 ^ 64 → s.X0.toNat % 2 ^ 64 < 2 ^ (k + 1) →
      Returns .wclz s (BitVec.ofNat s.W (63 - k))) ∧
    (s.X0.toNat = 0 → Returns .clz s (BitVec.ofNat s.W s.W)) ∧
    (∀ k, 2 ^ k ≤ s.X0.toNat → s.X0.toNat < 2 ^ (k + 1) →
      Returns .clz s (BitVec.ofNat s.W (s.W - 1 - k)))

/-- At `W = 64` each word primitive is its `W`-bit command (92_eei_decisions.md D41). -/
def Obligations.WordPrimitivesAtWidth64 : Prop :=
  ∀ s : State, s.j = 0 →
    exec .wadc s = exec .adc s ∧ exec .wsbc s = exec .sbc s ∧ exec .wmul s = exec .mulw s ∧
    exec .wdiv s = exec .divw s ∧ exec .wclz s = exec .clz s

/-! ### Adder, subtractor, multiplier -/

/-- R131 to R135. -/
def Obligations.AdderAndSubtractor : Prop :=
  ∀ s : State,
    let a := s.X0.toNat
    let b := s.X1.toNat
    let c := s.X2.toNat % 2
    decode s.W 0x0010#16 = .ok .add ∧ decode s.W 0x0011#16 = .ok .sub ∧ decode s.W 0x0012#16 = .ok .adc ∧
    decode s.W 0x0013#16 = .ok .sbc ∧ decode s.W 0x0014#16 = .ok .neg ∧
    Returns .add s (BitVec.ofNat s.W (a + b)) ∧
    Returns .sub s (BitVec.ofInt s.W ((a : Int) - b)) ∧
    Answers .adc s (BitVec.ofNat s.W (a + b + c)) 0 (decide (2 ^ s.W ≤ a + b + c)) ∧
    Answers .sbc s (BitVec.ofInt s.W ((a : Int) - b - c)) 0 (decide (a < b + c)) ∧
    Returns .neg s (BitVec.ofInt s.W (-(a : Int))) ∧
    Returns .neg s (~~~ s.X0 + 1)

/-- R151 to R154. -/
def Obligations.Multiplier : Prop :=
  ∀ s : State,
    let p := s.X0.toNat * s.X1.toNat
    decode s.W 0x0020#16 = .ok .mul ∧ decode s.W 0x0021#16 = .ok .mulw ∧ decode s.W 0x0022#16 = .ok .mulhi ∧
    decode s.W 0x0023#16 = .ok .mulhia ∧
    Returns .mul s (BitVec.ofNat s.W (p % 2 ^ s.W)) ∧
    Answers .mulw s (BitVec.ofNat s.W (p % 2 ^ s.W)) (BitVec.ofNat s.W (p / 2 ^ s.W)) false ∧
    Returns .mulhi s (BitVec.ofNat s.W (p / 2 ^ s.W)) ∧
    p / 2 ^ s.W < 2 ^ s.W ∧
    Returns .mulhia s (Config.mulhiAprxFn s.W s.X0 s.X1)

/-! ### Divider -/

/-- R171: both algorithms' words, the result, its property, the fault. -/
def Obligations.UnsignedDivision : Prop :=
  ∀ (s : State) (alg : Alg),
    decode s.W 0x0030#16 = .ok (.divremu .reciprocal) ∧ decode s.W 0x0230#16 = .ok (.divremu .exact) ∧
    (s.X1.toNat = 0 → Faults (.divremu alg) s (.divideByZero s.cmd.word .x1)) ∧
    (s.X1.toNat ≠ 0 → ∃ q r : BitVec s.W,
      Answers (.divremu alg) s q r false ∧
      q.toNat = s.X0.toNat / s.X1.toNat ∧ r.toNat = s.X0.toNat % s.X1.toNat ∧
      q.toNat * s.X1.toNat + r.toNat = s.X0.toNat ∧ r.toNat < s.X1.toNat)

/-- R172: truncation toward zero, the same result by absolute values, the fault. -/
def Obligations.SignedDivision : Prop :=
  ∀ (s : State) (alg : Alg),
    decode s.W 0x0130#16 = .ok (.divrems .reciprocal) ∧ decode s.W 0x0330#16 = .ok (.divrems .exact) ∧
    (s.X1.toInt = 0 → Faults (.divrems alg) s (.divideByZero s.cmd.word .x1)) ∧
    (s.X1.toInt ≠ 0 →
      Answers (.divrems alg) s (BitVec.ofInt s.W (Int.tdiv s.X0.toInt s.X1.toInt))
        (BitVec.ofInt s.W (Int.tmod s.X0.toInt s.X1.toInt)) false ∧
      Answers (.divrems alg) s (divRemByAbs s.X0 s.X1).1 (divRemByAbs s.X0 s.X1).2 false)

/-- R172's corner: the remainder has the sign of the dividend and stays below the divisor, the quotient and remainder
recompose the dividend, and only the most negative value by -1 wraps. -/
def Obligations.SignedDivisionProperty : Prop :=
  ∀ (s : State) (alg : Alg), s.X1.toInt ≠ 0 → ∃ q r : BitVec s.W,
    Answers (.divrems alg) s q r false ∧
    |r.toInt| < |s.X1.toInt| ∧ (r.toInt = 0 ∨ (r.toInt < 0 ↔ s.X0.toInt < 0)) ∧
    (s.X0.toInt = -2 ^ (s.W - 1) ∧ s.X1.toInt = -1 → q = s.X0 ∧ r = 0) ∧
    (¬ (s.X0.toInt = -2 ^ (s.W - 1) ∧ s.X1.toInt = -1) → q.toInt * s.X1.toInt + r.toInt = s.X0.toInt)

/-- R173, its two faults among it. -/
def Obligations.WideDivision : Prop :=
  ∀ s : State,
    let n := s.X0.toNat * 2 ^ s.W + s.X1.toNat
    let d := s.X2.toNat
    decode s.W 0x0031#16 = .ok .divw ∧
    (d = 0 → Faults .divw s (.divideByZero s.cmd.word .x2)) ∧
    (d ≠ 0 → d ≤ s.X0.toNat → Faults .divw s (.divideOverflow s.cmd.word)) ∧
    (s.X0.toNat < d →
      Answers .divw s (BitVec.ofNat s.W (n / d)) (BitVec.ofNat s.W (n % d)) false ∧ n / d < 2 ^ s.W)

/-- R174: RECIP returns the implementation's reciprocal in two slots. -/
def Obligations.ReciprocalInTwoSlots : Prop :=
  ∀ s : State,
    decode s.W 0x0032#16 = .ok .recip ∧
    (s.X0.toNat = 0 → Faults .recip s (.divideByZero s.cmd.word .x0)) ∧
    (s.X0.toNat ≠ 0 → ∃ y0 y1 : BitVec s.W,
      Answers .recip s y0 y1 false ∧ y1 ++ y0 = Config.recipFn s.W s.X0)

/-- R175: exact with the divisor's own reciprocal, two draws with any other, whatever the draws are. -/
def Obligations.DivisionByReciprocal : Prop :=
  ∀ s : State,
    decode s.W 0x0033#16 = .ok .divr ∧
    (s.X1.toNat = 0 → Faults .divr s (.divideByZero s.cmd.word .x1)) ∧
    (s.X1.toNat ≠ 0 → s.X3 ++ s.X2 = Config.recipFn s.W s.X1 →
      Answers .divr s (BitVec.ofNat s.W (s.X0.toNat / s.X1.toNat)) (BitVec.ofNat s.W (s.X0.toNat % s.X1.toNat)) false) ∧
    (s.X1.toNat ≠ 0 → s.X3 ++ s.X2 ≠ Config.recipFn s.W s.X1 →
      exec .divr s = .next { s with
        responses := ⟨Config.freeValue s.W s.draws, Config.freeValue s.W (s.draws + 1), false⟩ :: s.responses
        draws := s.draws + 2 })

/-- The source's laws `(a+b)-b == a` and `a/b*b + a%b == a`, by the commands. -/
def Obligations.ArithmeticLawsByCommands : Prop :=
  ∀ (s : State) (a b : BitVec s.W) (alg : Alg),
    (∃ sum, Returns .add (s.present a b 0 0) sum ∧ Returns .sub (s.present sum b 0 0) a) ∧
    (b ≠ 0 → ∃ q r p, Answers (.divremu alg) (s.present a b 0 0) q r false ∧
      Returns .mul (s.present q b 0 0) p ∧ Returns .add (s.present p r 0 0) a)

/-- R84: the words with `ALG = 0` and `ALG = 1` give the same response, or the same fault but for the recorded word. -/
def Obligations.AlgorithmBitChangesNoResult : Prop :=
  ∀ (s : State) (x0 x1 x2 x3 : BitVec s.W) (rest : List (HostEvent s.W)) (word : CommandWord),
    word = 0x0030#16 ∨ word = 0x0130#16 → s.fault = .none →
    let c0 : Command s.W := ⟨word, x0, x1, x2, x3⟩
    let c1 : Command s.W := ⟨word + 0x0200#16, x0, x1, x2, x3⟩
    (x1.toNat ≠ 0 → ∃ r,
      step { s with stream := .command c0 :: rest } =
        .next { s with cmd := c0, stream := rest, responses := r :: s.responses } ∧
      step { s with stream := .command c1 :: rest } =
        .next { s with cmd := c1, stream := rest, responses := r :: s.responses }) ∧
    (x1.toNat = 0 →
      step { s with stream := .command c0 :: rest } =
        .next { s with cmd := c0, stream := rest, fault := .divideByZero c0.word .x1 } ∧
      step { s with stream := .command c1 :: rest } =
        .next { s with cmd := c1, stream := rest, fault := .divideByZero c1.word .x1 })

/-! ### Bitwise operations, shifts, compare, conversion -/

/-- R200 to R203, bit by bit. -/
def Obligations.BitwiseOperations : Prop :=
  ∀ s : State,
    decode s.W 0x0040#16 = .ok .bitAnd ∧ decode s.W 0x0041#16 = .ok .bitOr ∧ decode s.W 0x0042#16 = .ok .bitXor ∧
    decode s.W 0x0043#16 = .ok .bitNot ∧
    (∃ y, Returns .bitAnd s y ∧ ∀ i < s.W, y.getLsbD i = (s.X0.getLsbD i && s.X1.getLsbD i)) ∧
    (∃ y, Returns .bitOr s y ∧ ∀ i < s.W, y.getLsbD i = (s.X0.getLsbD i || s.X1.getLsbD i)) ∧
    (∃ y, Returns .bitXor s y ∧ ∀ i < s.W, y.getLsbD i = (s.X0.getLsbD i != s.X1.getLsbD i)) ∧
    (∃ y, Returns .bitNot s y ∧ ∀ i < s.W, y.getLsbD i = !s.X0.getLsbD i)

/-- R204 to R207: every amount, those of at least the width among them. -/
def Obligations.BarrelShifter : Prop :=
  ∀ s : State,
    let sh := s.X1.toNat
    decode s.W 0x0048#16 = .ok .shl ∧ decode s.W 0x0049#16 = .ok .shr ∧ decode s.W 0x0149#16 = .ok .sar ∧
    (∃ y, Returns .shl s y ∧ y.toNat = if s.W ≤ sh then 0 else s.X0.toNat * 2 ^ sh % 2 ^ s.W) ∧
    (∃ y, Returns .shr s y ∧ y.toNat = if s.W ≤ sh then 0 else s.X0.toNat / 2 ^ sh) ∧
    (∃ y, Returns .sar s y ∧ y.toInt =
      if s.W ≤ sh then (if s.X0.toInt < 0 then -1 else 0) else Int.fdiv s.X0.toInt (2 ^ sh))

/-- R230, R231. -/
def Obligations.Comparator : Prop :=
  ∀ s : State,
    decode s.W 0x0050#16 = .ok .cmpu ∧ decode s.W 0x0150#16 = .ok .cmps ∧
    (∃ y, Returns .cmpu s y ∧ y.toInt =
      if s.X0.toNat < s.X1.toNat then -1 else if s.X0.toNat = s.X1.toNat then 0 else 1) ∧
    (∃ y, Returns .cmps s y ∧ y.toInt =
      if s.X0.toInt < s.X1.toInt then -1 else if s.X0.toInt = s.X1.toInt then 0 else 1)

/-- R232, R233: the words of R86, and the low `m` bits read unsigned or signed; `m > W` is illegal. -/
def Obligations.WidthConversion : Prop :=
  ∀ (s : State) (m : BitVec 4),
    (sourceWidth m ≤ s.W →
      decode s.W (BitVec.ofNat 16 (0x0054 + 0x0400 * m.toNat)) = .ok (.extz m) ∧
      decode s.W (BitVec.ofNat 16 (0x0154 + 0x0400 * m.toNat)) = .ok (.exts m) ∧
      (∃ y, Returns (.extz m) s y ∧ y.toNat = s.X0.toNat % 2 ^ (8 * 2 ^ m.toNat)) ∧
      (∃ y, Returns (.exts m) s y ∧ y.toInt = Int.bmod s.X0.toNat (2 ^ (8 * 2 ^ m.toNat)))) ∧
    (s.W < sourceWidth m →
      decode s.W (BitVec.ofNat 16 (0x0054 + 0x0400 * m.toNat)) = .error .sourceTooWide ∧
      decode s.W (BitVec.ofNat 16 (0x0154 + 0x0400 * m.toNat)) = .error .sourceTooWide)

/-! ### Power and gcd -/

/-- R250, R251. -/
def Obligations.Powers : Prop :=
  ∀ s : State,
    decode s.W 0x0060#16 = .ok .pow ∧ decode s.W 0x0061#16 = .ok .powm ∧
    Returns .pow s (BitVec.ofNat s.W (s.X0.toNat ^ s.X1.toNat)) ∧
    (s.X2.toNat = 0 → Faults .powm s (.divideByZero s.cmd.word .x2)) ∧
    (s.X2.toNat ≠ 0 → ∃ y, Returns .powm s y ∧ y.toNat = s.X0.toNat ^ s.X1.toNat % s.X2.toNat ∧ y.toNat < s.X2.toNat)

/-- R252: the greatest common divisor, and the value of Euclid's loop once it has enough rounds; gcd(0, 0) = 0 with it
(log 13). -/
def Obligations.GreatestCommonDivisor : Prop :=
  ∀ s : State,
    decode s.W 0x0062#16 = .ok .gcd ∧
    ∃ y, Returns .gcd s y ∧
      (∀ d : Nat, d ∣ y.toNat ↔ d ∣ s.X0.toNat ∧ d ∣ s.X1.toNat) ∧
      ∃ rounds, ∀ k, rounds ≤ k → euclid k s.X0.toNat s.X1.toNat = y.toNat

/-! ### Montgomery commands -/

/-- R272: an odd modulus loads its context whole and returns `one` and `ninv`; an even one faults. -/
def Obligations.ContextConstruction : Prop :=
  ∀ s : State,
    decode s.W 0x0070#16 = .ok .minit ∧
    (s.X0.toNat % 2 = 0 → Faults .minit s (.evenModulus s.cmd.word s.X0)) ∧
    (s.X0.toNat % 2 = 1 → ∃ m : Mctx s.W,
      exec .minit s = .next { s with mctx := m, responses := ⟨m.one, m.ninv, false⟩ :: s.responses } ∧
      m.valid = true ∧ m.n = s.X0 ∧ s.X0.toNat * m.ninv.toNat % 2 ^ s.W = 1 ∧
      m.recip = Config.recipFn s.W s.X0 ∧ m.one.toNat = 2 ^ s.W % s.X0.toNat)

/-- R273, R274, with any `Rinv` of R270: reduced in range, a draw (whatever it is) out of range, a fault without a
context. -/
def Obligations.MontgomeryReduceAndMultiply : Prop :=
  ∀ (s : State) (i : Instr) (T rinv : Nat),
    decode s.W 0x0071#16 = .ok .mreduce ∧ decode s.W 0x0072#16 = .ok .mmul ∧
    (i = .mreduce ∧ T = s.X1.toNat * 2 ^ s.W + s.X0.toNat ∨ i = .mmul ∧ T = s.X0.toNat * s.X1.toNat →
      (s.mctx.valid = false → Faults i s (.noContext s.cmd.word)) ∧
      (s.mctx.valid = true → s.mctx.n.toNat % 2 = 1 → IsRadixInverse s.W s.mctx.n.toNat rinv →
        (T < s.mctx.n.toNat * 2 ^ s.W → Returns i s (BitVec.ofNat s.W (T * rinv % s.mctx.n.toNat))) ∧
        (s.mctx.n.toNat * 2 ^ s.W ≤ T →
          exec i s = .next { s with
            responses := ⟨Config.freeValue s.W s.draws, 0, false⟩ :: s.responses
            draws := s.draws + 1 })))

/-- R275, with any `Rinv` of R270. -/
def Obligations.MontgomeryPower : Prop :=
  ∀ (s : State) (rinv : Nat),
    let n := s.mctx.n.toNat
    let a := s.X0.toNat
    decode s.W 0x0073#16 = .ok .mpow ∧
    (s.mctx.valid = false → Faults .mpow s (.noContext s.cmd.word)) ∧
    (s.mctx.valid = true → n % 2 = 1 → IsRadixInverse s.W n rinv →
      (a < n → Returns .mpow s (BitVec.ofNat s.W (2 ^ s.W * (a * rinv % n) ^ s.X1.toNat % n))) ∧
      (n ≤ a →
        exec .mpow s = .next { s with
          responses := ⟨Config.freeValue s.W s.draws, 0, false⟩ :: s.responses
          draws := s.draws + 1 }))

/-- R276, R277, with any `Rinv` of R270; every operand is legal. -/
def Obligations.MontgomeryTransforms : Prop :=
  ∀ (s : State) (rinv : Nat),
    let n := s.mctx.n.toNat
    decode s.W 0x0074#16 = .ok .mto ∧ decode s.W 0x0075#16 = .ok .mfrom ∧
    (s.mctx.valid = false →
      Faults .mto s (.noContext s.cmd.word) ∧ Faults .mfrom s (.noContext s.cmd.word)) ∧
    (s.mctx.valid = true → n % 2 = 1 → IsRadixInverse s.W n rinv →
      Returns .mto s (BitVec.ofNat s.W (s.X0.toNat * 2 ^ s.W % n)) ∧
      Returns .mfrom s (BitVec.ofNat s.W (s.X0.toNat * rinv % n)))

/-- R278: MINIT of an odd `n`, then into Montgomery form, multiply or raise, and out again. -/
def Obligations.MontgomeryRoundTrip : Prop :=
  ∀ (s : State) (n : BitVec s.W), n.toNat % 2 = 1 →
    ∃ (m : Mctx s.W) (r : Response s.W),
      exec .minit (s.present n 0 0 0) =
        .next { s.present n 0 0 0 with mctx := m, responses := r :: s.responses } ∧
      ∀ a b e : BitVec s.W, a.toNat < n.toNat → b.toNat < n.toNat →
        let u : State := { s with mctx := m }
        ∃ am bm pm p em q : BitVec s.W,
          Returns .mto (u.present a 0 0 0) am ∧ Returns .mto (u.present b 0 0 0) bm ∧
          Returns .mmul (u.present am bm 0 0) pm ∧ Returns .mfrom (u.present pm 0 0 0) p ∧
          p.toNat = a.toNat * b.toNat % n.toNat ∧
          Returns .mpow (u.present am e 0 0) em ∧ Returns .mfrom (u.present em 0 0 0) q ∧
          q.toNat = a.toNat ^ e.toNat % n.toNat ∧
          Returns .powm (u.present a e n 0) q

/-- Two constructions read `MCTX.ninv` and `MCTX.one` and give what MREDUCE and MPOW return. The first, reduction with the
stored inverse, is the spec's own and not the source's: R273 marks it "[from general knowledge, not in source]" (93 row
G3), and the model marks it PRESUMED (log 11). The second, square and multiply from `MCTX.one`, is R275's, "as the source
computes it". -/
def Obligations.StoredInverseAndOneGiveTheResults : Prop :=
  ∀ s : State, s.Inv → s.mctx.valid = true →
    (∀ T, T = s.X1.toNat * 2 ^ s.W + s.X0.toNat → T < s.mctx.n.toNat * 2 ^ s.W →
      Returns .mreduce s (BitVec.ofInt s.W (reduceByInverse s.W s.mctx.n.toNat s.mctx.ninv.toNat T))) ∧
    (s.X0.toNat < s.mctx.n.toNat →
      Returns .mpow s (BitVec.ofNat s.W
        (montPowLoop s.W s.mctx.n.toNat s.W s.mctx.one.toNat s.X0.toNat s.X1.toNat)))

/-! ### What a result does not depend on -/

/-- R30: a slot a command ignores cannot change its result. -/
def Obligations.IgnoredSlotsChangeNothing : Prop :=
  ∀ (i : Instr) (s : State) (c : Command s.W), c.word = s.cmd.word →
    (∀ x ∈ reads i, c.slot x = s.cmd.slot x) →
    (∃ r m k, exec i s = .next { s with responses := r :: s.responses, mctx := m, draws := s.draws + k } ∧
      exec i { s with cmd := c } =
        .next { s with cmd := c, responses := r :: s.responses, mctx := m, draws := s.draws + k }) ∨
    (∃ f, exec i s = .next { s with fault := f } ∧
      exec i { s with cmd := c } = .next { s with cmd := c, fault := f })

/-- R11: a response is a function of the command, and of `MCTX` for the commands that read it, alone: not of the host's
stream, the earlier responses or the latch, nor of `MCTX` for the other commands. -/
def Obligations.ResultsDependOnCommandAndContextOnly : Prop :=
  ∀ (i : Instr) (s : State) (es : List (HostEvent s.W)) (rs : List (Response s.W)) (fl : FaultLatch s.W) (m : Mctx s.W),
    (readsContext i = true → m = s.mctx) →
    let t : State := { s with stream := es, responses := rs, fault := fl, mctx := m }
    (∃ r m' k, exec i s = .next { s with responses := r :: s.responses, mctx := m', draws := s.draws + k } ∧
      exec i t = .next { t with
        responses := r :: rs, mctx := if i = .minit then m' else m, draws := s.draws + k }) ∨
    (∃ f, exec i s = .next { s with fault := f } ∧ exec i t = .next { t with fault := f })

/-- The unit keeps no copy of the last command: what was presented before changes no step that takes an event. -/
def Obligations.StepForgetsTheLastCommand : Prop :=
  ∀ (s : State) (c : Command s.W), s.stream ≠ [] → step { s with cmd := c } = step s

/-- R69: agents that share a unit and issue pure commands get the same response to each command under every interleaving
of their streams, whatever the unit held before; the run ends well, and `MCTX` is untouched. Several agents are one stream
by log 16 (DEDUCED). -/
def Obligations.InterleavingsGiveTheSameResponses : Prop :=
  ∀ (j : Nat) (agents : List (List (Command (width j)))), (∀ a ∈ agents, ∀ c ∈ a, PureCommand j c) →
    ∃ answer : Command (width j) → Response (width j),
      ∀ (es : List (Command (width j))) (shown : Command (width j)) (rs : List (Response (width j))) (m : Mctx (width j))
          (d : Nat), Interleaving agents es →
        ∃ (t : State) (c : Command (width j)),
          Sys2Proof.core.run es.length
            { j := j, cmd := shown, stream := es.map .command, responses := rs, mctx := m, fault := .none, draws := d } =
              .next t ∧
          t = { j := j, cmd := c, stream := [], responses := (es.map answer).reverse ++ rs, mctx := m, fault := .none,
                draws := d } ∧
          t.EndedWell

/-! ### The units as the source builds them -/

/-- R130: the recursion computes exactly the adder and subtractor of ADC and SBC. -/
def Obligations.AdderTreeComputesAdcAndSbc : Prop :=
  ∀ s : State,
    Answers .adc s (adcTree s.j (s.X2.getLsbD 0) s.X0 s.X1).1 0 (adcTree s.j (s.X2.getLsbD 0) s.X0 s.X1).2 ∧
    Answers .sbc s (sbcTree s.j (s.X2.getLsbD 0) s.X0 s.X1).1 0 (sbcTree s.j (s.X2.getLsbD 0) s.X0 s.X1).2

/-- R150's algorithms, as the model fills them in, compute MULW's product, and their truncated composition MUL's. The word
sum of schoolbook and the carries of Karatsuba's middle product, which R150 does not write out, are PRESUMED (log 20). That
`large` chooses freely between them at each width is DESIGN CHOICE (log 20): R150 gives no threshold and says the choice
changes no result. At `W = 64` there are no halves, and MUL is the statement `Multiplier`'s. -/
def Obligations.MultiplierTreeIsExact : Prop :=
  ∀ (large : Nat → Bool) (s : State),
    (∃ y0 y1 : BitVec s.W, Answers .mulw s y0 y1 false ∧
      y1.toNat * 2 ^ s.W + y0.toNat = mulTree large s.j s.X0.toNat s.X1.toNat) ∧
    (∀ j, s.j = j + 1 → ∃ y, Returns .mul s y ∧ y.toNat = mulTruncTree large j s.X0.toNat s.X1.toNat)

/-- R209: the decomposition into halves computes the bitwise operations, the shifts and the count. What moves into the
high half of an arithmetic shift is DEDUCED (log 20). -/
def Obligations.HalvesComputeBitwiseShiftsAndClz : Prop :=
  ∀ s : State,
    Returns .bitAnd s (bitwiseTree (· &&& ·) s.j s.X0 s.X1) ∧
    Returns .bitOr s (bitwiseTree (· ||| ·) s.j s.X0 s.X1) ∧
    Returns .bitXor s (bitwiseTree (· ^^^ ·) s.j s.X0 s.X1) ∧
    Returns .bitNot s (bitwiseTree (fun a _ => ~~~ a) s.j s.X0 s.X1) ∧
    Returns .shl s (shlTree s.j s.X0 s.X1.toNat) ∧
    Returns .shr s (shrTree s.j s.X0 s.X1.toNat) ∧
    Returns .sar s (sarTree s.j s.X0 s.X1.toNat) ∧
    Returns .clz s (BitVec.ofNat s.W (clzTree s.j s.X0))

/-- R234: the lexicographic compare of the halves is the unsigned order; with the sign bits inverted, the signed one. -/
def Obligations.ComparatorTreeOrders : Prop :=
  ∀ s : State,
    Returns .cmpu s (orderBits s.W (compareTree s.j s.X0 s.X1)) ∧
    Returns .cmps s (orderBits s.W (compareTree s.j (flipSign s.X0) (flipSign s.X1)))

/-- R177: the widened Algorithm D gives the quotient and remainder of DIVW. The details of its digit loop, which R177 does
not give, are PRESUMED (log 20). -/
def Obligations.KnuthDivisionIsExact : Prop :=
  ∀ s : State, s.X0.toNat < s.X2.toNat →
    ∃ q r : BitVec s.W, Answers .divw s q r false ∧
      knuthDiv s.j s.X0.toNat s.X1.toNat s.X2.toNat = (q.toNat, r.toNat)

/-- R176: a candidate quotient off by at most one is made exact by the single correction. -/
def Obligations.SingleCorrectionIsExact : Prop :=
  ∀ (s : State) (alg : Alg) (candidate : Nat), s.X1.toNat ≠ 0 →
    candidate ≤ s.X0.toNat / s.X1.toNat + 1 → s.X0.toNat / s.X1.toNat ≤ candidate + 1 →
    ∃ q r : BitVec s.W, Answers (.divremu alg) s q r false ∧
      correctQuotient s.X0.toNat s.X1.toNat candidate = (q.toNat, r.toNat)

/-! ### Memory image, assembler -/

/-- R60, R62, R63: the image's bytes and words, its cells in host memory and no others, the two-slot image; a value is read
back from its image, and each list of `W/8` bytes is the image of the value read from it. -/
def Obligations.MemoryImage : Prop :=
  ∀ (j : Nat) (v hi : BitVec (width j)) (a : Nat),
    (image v).length = width j / 8 ∧
    (∀ i < width j / 8, (image v)[i]? = some (BitVec.ofNat 8 (v.toNat / 2 ^ (8 * i)))) ∧
    imageAt a v = (List.range (width j / 8)).map (fun i => (a + i, BitVec.ofNat 8 (v.toNat / 2 ^ (8 * i)))) ∧
    (∀ i < width j / 64, bytesToNat ((image v).drop (8 * i) |>.take 8) = (wordOf v i).toNat) ∧
    ofImage (width j) (image v) = v ∧
    (∀ bs : List Byte, bs.length = width j / 8 → image (ofImage (width j) bs) = bs) ∧
    imagePair hi v = image v ++ image hi

/-- R91: an instruction's mnemonic and suffix name it, and name nothing else; a line assembles to the instruction's word and
its four slots, and to nothing where the mnemonic and suffix name no instruction. Lines are structured data (log 18), and a
number of `2^W` or more is taken modulo `2^W` (log 24); both are DESIGN CHOICE. -/
def Obligations.AssemblerNamesInstructions : Prop :=
  ∀ (W : Nat) (i : Instr) (mnemonic : String) (suffix : Option AsmSuffix) (v0 v1 v2 v3 : Option AsmValue),
    let slot (v : Option AsmValue) : BitVec W :=
      match v with
      | none => 0
      | some (.nat n) => BitVec.ofNat W n
      | some (.neg d) => BitVec.ofInt W (-d)
    (asmInstr mnemonic suffix = some i ↔ mnemonicOf i = mnemonic ∧ suffixOf i = suffix) ∧
    assemble W ⟨mnemonicOf i, suffixOf i, v0, v1, v2, v3⟩ =
      some ⟨encode i, slot v0, slot v1, slot v2, slot v3⟩ ∧
    ((∀ k, ¬ (mnemonicOf k = mnemonic ∧ suffixOf k = suffix)) →
      assemble W ⟨mnemonic, suffix, v0, v1, v2, v3⟩ = none)

/-- R92: each pseudo-command's expansion, by its word and slots, and what its row says it reads back, run by a step. -/
def Obligations.PseudoCommandsReadBack : Prop :=
  ∀ (s : State) (a b : BitVec s.W) (rest : List (HostEvent s.W)), s.fault = .none →
    let back (p : Pseudo) (v : BitVec s.W) := ∃ r : Response s.W,
      step { s with stream := .command (p.expand a b) :: rest } =
        .next { s with cmd := p.expand a b, stream := rest, responses := r :: s.responses } ∧ p.readBack r = v
    (∀ m, (Pseudo.trunc m).expand a b = ⟨BitVec.ofNat 16 (0x0054 + 0x0400 * m.toNat), a, 0, 0, 0⟩) ∧
    Pseudo.divu.expand a b = ⟨0x0030#16, a, b, 0, 0⟩ ∧ Pseudo.remu.expand a b = ⟨0x0030#16, a, b, 0, 0⟩ ∧
    Pseudo.divs.expand a b = ⟨0x0130#16, a, b, 0, 0⟩ ∧ Pseudo.rems.expand a b = ⟨0x0130#16, a, b, 0, 0⟩ ∧
    Pseudo.inc.expand a b = ⟨0x0010#16, a, 1, 0, 0⟩ ∧ Pseudo.dec.expand a b = ⟨0x0011#16, a, 1, 0, 0⟩ ∧
    Pseudo.isneg.expand a b = ⟨0x0150#16, a, 0, 0, 0⟩ ∧ Pseudo.iszero.expand a b = ⟨0x0050#16, a, 0, 0, 0⟩ ∧
    (∀ m, sourceWidth m ≤ s.W → back (.trunc m) (BitVec.ofNat s.W (a.toNat % 2 ^ sourceWidth m))) ∧
    (b ≠ 0 →
      back .divu (BitVec.ofNat s.W (a.toNat / b.toNat)) ∧ back .remu (BitVec.ofNat s.W (a.toNat % b.toNat)) ∧
      back .divs (BitVec.ofInt s.W (Int.tdiv a.toInt b.toInt)) ∧
      back .rems (BitVec.ofInt s.W (Int.tmod a.toInt b.toInt))) ∧
    back .inc (a + 1) ∧ back .dec (a - 1) ∧
    (∃ y, back .isneg y ∧ (y = BitVec.ofInt s.W (-1) ↔ a.toInt < 0)) ∧
    (∃ y, back .iszero y ∧ (y = 0 ↔ a = 0))
end

