-- ==== Sys2Proof/Laws/Arith.lean ====
section
/-! SUPPORT. One lemma per arithmetic function: what it computes (Machine/Arith.lean). -/

namespace Sys2Proof.Machine

theorem width_eq (j : Nat) : width j = 2 ^ (6 + j) := by
  induction j with
  | zero => rfl
  | succ j ih => rw [width, ih]; ring

theorem width_ge (j : Nat) : 64 ≤ width j := by
  induction j with
  | zero => exact le_refl 64
  | succ j ih => rw [width]; omega

theorem width_pos (j : Nat) : 0 < width j := by have := width_ge j; omega

/-! ### Powers -/

theorem powModLoop_eq (m : Nat) : ∀ (fuel r b e : Nat), r % m = r → e < 2 ^ fuel →
    powModLoop m fuel r b e = r * b ^ e % m
  | 0, r, b, e, hr, he => by
    obtain rfl : e = 0 := by simpa using he
    simp [powModLoop, hr]
  | fuel + 1, r, b, e, hr, he => by
    have he2 : e / 2 < 2 ^ fuel := by rw [pow_succ] at he; omega
    have hsq : ∀ k, (b * b % m) ^ k ≡ b ^ (2 * k) [MOD m] := fun k => by
      rw [pow_mul, pow_two]; exact (Nat.mod_modEq _ m).pow k
    rw [powModLoop]
    split
    · rw [powModLoop_eq m fuel _ _ _ (Nat.mod_mod _ _) he2]
      have : b ^ e = b * b ^ (2 * (e / 2)) := by rw [← pow_succ']; congr 1; omega
      rw [this, ← mul_assoc]
      exact (Nat.mod_modEq (r * b) m).mul (hsq _)
    · rw [powModLoop_eq m fuel _ _ _ hr he2]
      have : b ^ e = b ^ (2 * (e / 2)) := by congr 1; omega
      rw [this]
      exact (Nat.ModEq.refl r).mul (hsq _)

/-- Square and multiply computes the power (R250, R251). -/
theorem powMod_eq {bits e : Nat} (a m : Nat) (he : e < 2 ^ bits) : powMod bits a e m = a ^ e % m := by
  rw [powMod, powModLoop_eq m bits _ _ _ (Nat.mod_mod _ _) he]
  calc 1 % m * (a % m) ^ e % m = 1 * a ^ e % m :=
        (Nat.mod_modEq 1 m).mul ((Nat.mod_modEq a m).pow e)
    _ = a ^ e % m := by rw [one_mul]

/-! ### Inverses -/

/-- A Newton step doubles the number of right low bits (R272). -/
theorem newton_step {N k : Nat} {n x : Nat} (h : (2 ^ k : Int) ∣ 1 - n * x) :
    (2 ^ min (2 * k) N : Int) ∣ 1 - n * ((x * (2 + 2 ^ N - n * x % 2 ^ N) % 2 ^ N : Nat) : Int) := by
  set y := n * x % 2 ^ N with hy
  have hlt : y < 2 ^ N := Nat.mod_lt _ (by positivity)
  have hN : (2 ^ min (2 * k) N : Int) ∣ 2 ^ N := pow_dvd_pow _ (min_le_right _ _)
  have hK : (2 ^ min (2 * k) N : Int) ∣ (2 ^ k) ^ 2 := by
    rw [← pow_mul, mul_comm k 2]; exact pow_dvd_pow _ (min_le_left _ _)
  obtain ⟨a, ha⟩ : ∃ a : Int, (y : Int) = n * x - 2 ^ N * a :=
    ⟨(n * x : Int) / 2 ^ N, by
      have := Int.emod_add_mul_ediv (n * x : Int) (2 ^ N)
      push_cast [hy]; linarith⟩
  obtain ⟨c, hc⟩ : ∃ c : Int, ((x * (2 + 2 ^ N - y) % 2 ^ N : Nat) : Int) = x * (2 + 2 ^ N - y) - 2 ^ N * c :=
    ⟨(x * (2 + 2 ^ N - y) : Int) / 2 ^ N, by
      have := Int.emod_add_mul_ediv (x * (2 + 2 ^ N - y) : Int) (2 ^ N)
      push_cast [Nat.cast_sub (show y ≤ 2 + 2 ^ N by omega)]; linarith⟩
  rw [hc, ha]
  have : (1 : Int) - n * (x * (2 + 2 ^ N - (n * x - 2 ^ N * a)) - 2 ^ N * c)
      = (1 - n * x) ^ 2 + 2 ^ N * (n * c - n * x - n * x * a) := by ring
  rw [this]
  exact dvd_add (hK.trans (pow_dvd_pow_of_dvd h 2)) (hN.mul_right _)

theorem newtonInverse_dvd {N n : Nat} : ∀ (r x k : Nat), (2 ^ min k N : Int) ∣ 1 - n * x →
    (2 ^ min (k * 2 ^ r) N : Int) ∣ 1 - n * (newtonInverse N n r x : Int)
  | 0, x, k, h => by simpa [newtonInverse] using h
  | r + 1, x, k, h => by
    rw [newtonInverse]
    have hstep := newton_step (N := N) (k := min k N) (n := n) (x := x) h
    have hmin : min (2 * min k N) N = min (2 * k) N := by omega
    rw [hmin] at hstep
    have := newtonInverse_dvd r _ (2 * k) hstep
    rwa [show 2 * k * 2 ^ r = k * 2 ^ (r + 1) by ring] at this

theorem newtonInverse_lt {N n : Nat} : ∀ (r x : Nat), x < 2 ^ N → newtonInverse N n r x < 2 ^ N
  | 0, x, h => h
  | r + 1, x, _ => newtonInverse_lt r _ (Nat.mod_lt _ (by positivity))

theorem inversePow2_lt (N n : Nat) : inversePow2 N n < 2 ^ N :=
  newtonInverse_lt _ _ (Nat.mod_lt _ (by positivity))

/-- The Newton inverse is the inverse modulo `2^N` (R272). -/
theorem inversePow2_mul {N n : Nat} (hN : 0 < N) (hn : n % 2 = 1) : n * inversePow2 N n % 2 ^ N = 1 := by
  have h1 : (2 ^ min 1 N : Int) ∣ 1 - n * ((n % 2 ^ N : Nat) : Int) := by
    rw [show min 1 N = 1 by omega, pow_one]
    have h2 : (n % 2 ^ N) % 2 = 1 := by
      rw [Nat.mod_mod_of_dvd _ (dvd_pow_self 2 (by omega))]; exact hn
    have h3 : n * (n % 2 ^ N) % 2 = 1 := by rw [Nat.mul_mod, hn, h2]
    have : ((n * (n % 2 ^ N) : Nat) : Int) % 2 = 1 := by exact_mod_cast h3
    rw [Nat.cast_mul] at this
    omega
  have h3 : (2 ^ min 3 N : Int) ∣ 1 - n * ((n % 2 ^ N : Nat) : Int) := by
    obtain ⟨q, hq⟩ : ∃ q : Int, ((n % 2 ^ N : Nat) : Int) = n - 2 ^ N * q :=
      ⟨(n : Int) / 2 ^ N, by have := Int.emod_add_mul_ediv (n : Int) (2 ^ N); push_cast; linarith⟩
    have h8 : (2 ^ 3 : Int) ∣ 1 - n * n := by
      obtain ⟨a, rfl⟩ : ∃ a, n = 2 * a + 1 := ⟨n / 2, by omega⟩
      obtain ⟨b, hb⟩ : ∃ b, a * (a + 1) = 2 * b := (Nat.even_mul_succ_self a).two_dvd
      refine ⟨-b, ?_⟩
      have : (a : Int) * (a + 1) = 2 * b := by exact_mod_cast hb
      push_cast
      linear_combination -4 * this
    rw [hq, show (1 : Int) - n * (n - 2 ^ N * q) = (1 - n * n) + 2 ^ N * (n * q) by ring]
    exact dvd_add ((pow_dvd_pow _ (min_le_left 3 N)).trans h8)
      ((pow_dvd_pow _ (min_le_right 3 N)).mul_right _)
  have hlog : min (3 * 2 ^ N.log2) N = N := by
    have := Nat.lt_log2_self (n := N)
    rw [pow_succ] at this
    omega
  have hmain := newtonInverse_dvd N.log2 (n % 2 ^ N) 3 h3
  rw [hlog] at hmain
  have hz : ((n * inversePow2 N n : Nat) : Int) ≡ ((1 : Nat) : Int) [ZMOD ((2 ^ N : Nat) : Int)] := by
    rw [Int.modEq_iff_dvd]
    push_cast
    exact hmain
  have hm := (Int.natCast_modEq_iff).1 hz
  rw [Nat.ModEq, Nat.mod_eq_of_lt (a := 1) (Nat.one_lt_two_pow (by omega))] at hm
  exact hm

/-- `(2^N * Rinv) rem n = 1 rem n` (R270). -/
theorem radixInverse_mul {N n : Nat} (hn : n % 2 = 1) : 2 ^ N * radixInverse N n % n = 1 % n := by
  have h2 : 2 * ((n + 1) / 2) ≡ 1 [MOD n] := by
    rw [show 2 * ((n + 1) / 2) = n + 1 by omega]; simp [Nat.ModEq]
  calc 2 ^ N * radixInverse N n % n = 2 ^ N * ((n + 1) / 2) ^ N % n :=
        (Nat.ModEq.refl _).mul (Nat.mod_modEq _ _)
    _ = (2 * ((n + 1) / 2)) ^ N % n := by rw [mul_pow]
    _ = 1 ^ N % n := h2.pow N
    _ = 1 % n := by rw [one_pow]

theorem radixInverse_lt {N n : Nat} (hn : n % 2 = 1) : radixInverse N n < n :=
  Nat.mod_lt _ (by omega)

/-! ### Montgomery reduction -/

theorem montReduce_lt {N n : Nat} (T : Nat) (hn : n % 2 = 1) : montReduce N n T < n :=
  Nat.mod_lt _ (by omega)

/-- A reduction times the radix is its argument (R273). -/
theorem montReduce_mul {N n : Nat} (T : Nat) (hn : n % 2 = 1) : montReduce N n T * 2 ^ N ≡ T [MOD n] := by
  calc montReduce N n T * 2 ^ N ≡ T * radixInverse N n * 2 ^ N [MOD n] :=
        (Nat.mod_modEq _ _).mul (Nat.ModEq.refl _)
    _ = T * (2 ^ N * radixInverse N n) := by ring
    _ ≡ T * 1 [MOD n] := (Nat.ModEq.refl T).mul (radixInverse_mul hn)
    _ = T := mul_one T

theorem montReduce_congr {N n T U : Nat} (h : T ≡ U [MOD n]) : montReduce N n T = montReduce N n U :=
  h.mul_right _

/-- Reducing a multiple of the radix divides it out. -/
theorem montReduce_radix {N n : Nat} (T : Nat) (hn : n % 2 = 1) : montReduce N n (T * 2 ^ N) = T % n := by
  rw [montReduce, mul_assoc]
  calc T * (2 ^ N * radixInverse N n) % n = T * 1 % n := (Nat.ModEq.refl T).mul (radixInverse_mul hn)
    _ = T % n := by rw [mul_one]

/-! ### Leading zeros -/

theorem leadingZeros_zero (N : Nat) : leadingZeros (0 : BitVec N) = N := if_pos rfl

/-- A value whose top set bit is `k` has `N - 1 - k` leading zeros (00_scope.md R17). -/
theorem leadingZeros_of_bounds {N k : Nat} {v : BitVec N} (hlo : 2 ^ k ≤ v.toNat) (hhi : v.toNat < 2 ^ (k + 1)) :
    leadingZeros v = N - 1 - k := by
  have hv : v.toNat ≠ 0 := by have := Nat.two_pow_pos k; omega
  have hne : v ≠ 0 := fun h => hv (by simp [h])
  rw [leadingZeros, if_neg hne, (Nat.log2_eq_iff hv).2 ⟨hlo, hhi⟩]

end Sys2Proof.Machine
end

