-- ==== Sys2Proof/Laws/Operands.lean ====
section
/-! SUPPORT. The values of the operand forms and of the shared functions, as numbers and bit by bit. -/

namespace Sys2Proof.Machine

/-! ### Operand forms -/

theorem eq_zero_iff_toNat {N : Nat} (v : BitVec N) : v = 0 ↔ v.toNat = 0 := by
  rw [← BitVec.toNat_inj]; simp

theorem toInt_eq_zero_iff {N : Nat} (v : BitVec N) : v.toInt = 0 ↔ v = 0 := by
  rw [← BitVec.toInt_inj]; simp

theorem lowBit_eq {N : Nat} (v : BitVec N) : v.getLsbD 0 = decide (v.toNat % 2 = 1) := by
  simp [BitVec.getLsbD, Nat.testBit_zero]

theorem carryBit_toNat {N : Nat} (v : BitVec N) : (carryBit v).toNat = v.toNat % 2 := by
  rw [carryBit, lowBit_eq]
  rcases Nat.mod_two_eq_zero_or_one v.toNat with h | h <;> simp [h]

theorem lowWord_toNat {N : Nat} (v : BitVec N) : (lowWord v).toNat = v.toNat % 2 ^ 64 := by simp [lowWord]

theorem lowWord_eq_zero_iff {N : Nat} (v : BitVec N) : lowWord v = 0 ↔ v.toNat % 2 ^ 64 = 0 := by
  rw [eq_zero_iff_toNat, lowWord_toNat]

theorem zextWord_eq (N : Nat) (v : Word) : zextWord N v = BitVec.ofNat N v.toNat := by
  rw [← BitVec.toNat_inj]; simp [zextWord]

theorem lowHalf_toNat {N : Nat} (v : BitVec (N + N)) : (lowHalf v).toNat = v.toNat % 2 ^ N := by
  simp [lowHalf, BitVec.extractLsb'_toNat]

theorem highHalf_toNat {N : Nat} (v : BitVec (N + N)) : (highHalf v).toNat = v.toNat / 2 ^ N := by
  simp only [highHalf, BitVec.extractLsb'_toNat, Nat.shiftRight_eq_div_pow]
  apply Nat.mod_eq_of_lt
  apply Nat.div_lt_of_lt_mul
  rw [← pow_add]
  exact v.isLt

/-- `uint({hi, lo})` is `uint(hi) * 2^N + uint(lo)` (00_scope.md R14). -/
theorem uintPair_eq {N : Nat} (hi lo : BitVec N) : uintPair hi lo = hi.toNat * 2 ^ N + lo.toNat := by
  rw [uintPair, BitVec.toNat_append, Nat.shiftLeft_eq, mul_comm, ← Nat.two_pow_add_eq_or_of_lt lo.isLt]

/-! ### Add, subtract, multiply, divide -/

theorem addCarry_false {N : Nat} (a b : BitVec N) : (addCarry false a b).1 = a + b := by
  rw [← BitVec.toNat_inj]; simp [addCarry]

theorem subBorrow_false {N : Nat} (a b : BitVec N) : (subBorrow false a b).1 = a - b := by
  rw [← BitVec.toNat_inj]
  simp only [subBorrow, BitVec.toNat_sub, BitVec.toNat_ofInt, Bool.toNat_false, Nat.cast_zero, sub_zero]
  have h : ((a.toNat : Int) - b.toNat) % ((2 ^ N : Nat) : Int) =
      ((2 ^ N - b.toNat + a.toNat : Nat) : Int) % ((2 ^ N : Nat) : Int) := by
    rw [Nat.cast_add, Nat.cast_sub b.isLt.le,
      show (((2 ^ N : Nat) : Int) - b.toNat + a.toNat) = (a.toNat - b.toNat) + ((2 ^ N : Nat) : Int) by ring,
      Int.add_emod_right]
  rw [h]; norm_cast

/-- The product of two values fits their double width. -/
theorem fullProduct_toNat {N : Nat} (a b : BitVec N) : (fullProduct a b).toNat = a.toNat * b.toNat := by
  simp only [fullProduct, BitVec.toNat_ofNat]
  apply Nat.mod_eq_of_lt
  rw [pow_add]
  exact Nat.mul_lt_mul'' a.isLt b.isLt

theorem divRemU_quotient {N : Nat} (a d : BitVec N) : (divRemU a d).1.toNat = a.toNat / d.toNat := by
  simp [divRemU, Nat.mod_eq_of_lt ((Nat.div_le_self a.toNat d.toNat).trans_lt a.isLt)]

theorem divRemU_remainder {N : Nat} (a d : BitVec N) : (divRemU a d).2.toNat = a.toNat % d.toNat := by
  simp [divRemU, Nat.mod_eq_of_lt ((Nat.mod_le a.toNat d.toNat).trans_lt a.isLt)]

/-- The quotient of a two-slot numerator fits one slot below the overflow bound (R173). -/
theorem wideQuotient_lt {nh nl d N : Nat} (h : nh < d) (hl : nl < 2 ^ N) : (nh * 2 ^ N + nl) / d < 2 ^ N := by
  apply Nat.div_lt_of_lt_mul
  nlinarith [Nat.two_pow_pos N, Nat.mul_le_mul_right (2 ^ N) (show nh + 1 ≤ d from h)]

/-! ### Shifts and order -/

theorem shiftRight_getLsbD {N : Nat} (v : BitVec N) (sh i : Nat) : (shiftRight v sh).getLsbD i = v.getLsbD (sh + i) := by
  unfold shiftRight
  split
  · simp only [BitVec.ofNat_eq_ofNat, BitVec.getLsbD_zero]
    exact (BitVec.getLsbD_of_ge v _ (by omega)).symm
  · have h : BitVec.ofNat N (v.toNat / 2 ^ sh) = v >>> sh := by
      rw [← BitVec.toNat_inj]
      simp [Nat.shiftRight_eq_div_pow, Nat.mod_eq_of_lt ((Nat.div_le_self v.toNat (2 ^ sh)).trans_lt v.isLt)]
    rw [h]; simp

theorem shiftLeft_getLsbD {N : Nat} (v : BitVec N) (sh i : Nat) :
    (shiftLeft v sh).getLsbD i = (decide (i < N) && !decide (i < sh) && v.getLsbD (i - sh)) := by
  unfold shiftLeft
  split
  · simp only [BitVec.ofNat_eq_ofNat, BitVec.getLsbD_zero]
    by_cases h : i < N
    · simp [show i < sh by omega]
    · simp [h]
  · have h : BitVec.ofNat N (v.toNat * 2 ^ sh) = v <<< sh := by
      rw [← BitVec.toNat_inj]; simp [Nat.shiftLeft_eq]
    rw [h]; simp

/-- SAR's function (R207) as the library's arithmetic shift. -/
theorem shiftRightArith_eq {N : Nat} (v : BitVec N) (sh : Nat) : shiftRightArith v sh = v.sshiftRight sh := by
  unfold shiftRightArith
  split
  · apply BitVec.eq_of_getLsbD_eq
    intro i hi
    have hsh : ¬ sh + i < N := by omega
    have ones : BitVec.ofInt N (-1) = BitVec.allOnes N := by
      rw [← BitVec.neg_one_eq_allOnes, BitVec.ofInt_neg]; simp
    rw [BitVec.getLsbD_sshiftRight, ones]
    cases v.msb <;> simp [hsh, hi]
  · rename_i hsh
    rw [← BitVec.toInt_inj, BitVec.toInt_sshiftRight, BitVec.toInt_ofInt, Int.shiftRight_eq_div_pow]
    have hlo := BitVec.le_toInt v
    have hhi := BitVec.toInt_lt (x := v)
    have hp : (0 : Int) < 2 ^ sh := by positivity
    have hN : (2 : Int) ^ N = 2 * 2 ^ (N - 1) := by rw [← pow_succ']; congr 1; omega
    have hpos : (0 : Int) < 2 ^ (N - 1) := by positivity
    have h1 : -2 ^ (N - 1) ≤ v.toInt / 2 ^ sh := by rw [Int.le_ediv_iff_mul_le hp]; nlinarith
    have h2 : v.toInt / 2 ^ sh < 2 ^ (N - 1) := by rw [Int.ediv_lt_iff_lt_mul hp]; nlinarith
    push_cast
    apply Int.bmod_eq_of_le <;> push_cast <;> rw [hN] <;> omega

theorem shiftRightArith_getLsbD {N : Nat} (v : BitVec N) (sh i : Nat) :
    (shiftRightArith v sh).getLsbD i = (!decide (N ≤ i) && if sh + i < N then v.getLsbD (sh + i) else v.msb) := by
  rw [shiftRightArith_eq, BitVec.getLsbD_sshiftRight]

/-- The comparator's output read as a signed value (R230, R231). -/
theorem orderBits_toInt (j : Nat) (o : Ordering) :
    (orderBits (width j) o).toInt = match o with | .lt => -1 | .eq => 0 | .gt => 1 := by
  have hW := width_ge j
  have h1 : (2 : Int) ^ width j = 4 * 2 ^ (width j - 2) := by
    rw [show (4 : Int) = 2 ^ 2 by norm_num, ← pow_add]; congr 1; omega
  have h2 : (0 : Int) < 2 ^ (width j - 2) := by positivity
  cases o
  · simp only [orderBits, BitVec.toInt_ofInt]
    apply Int.bmod_eq_of_le <;> push_cast <;> rw [h1] <;> omega
  · simp [orderBits]
  · show (BitVec.ofNat (width j) 1).toInt = 1
    rw [show BitVec.ofNat (width j) 1 = BitVec.ofInt (width j) 1 by simp, BitVec.toInt_ofInt]
    apply Int.bmod_eq_of_le <;> push_cast <;> rw [h1] <;> omega

end Sys2Proof.Machine
end

