-- ==== Sys2Proof/Laws/State.lean ====
section
/-! SUPPORT. One lemma per field per update of the state, true by rfl. -/

namespace Sys2Proof.Machine.State

variable (s : State)

@[simp] theorem withResponse_j (r : Response s.W) : (s.withResponse r).j = s.j := rfl
@[simp] theorem withResponse_cmd (r : Response s.W) : (s.withResponse r).cmd = s.cmd := rfl
@[simp] theorem withResponse_stream (r : Response s.W) : (s.withResponse r).stream = s.stream := rfl
@[simp] theorem withResponse_responses (r : Response s.W) : (s.withResponse r).responses = r :: s.responses := rfl
@[simp] theorem withResponse_mctx (r : Response s.W) : (s.withResponse r).mctx = s.mctx := rfl
@[simp] theorem withResponse_fault (r : Response s.W) : (s.withResponse r).fault = s.fault := rfl
@[simp] theorem withResponse_draws (r : Response s.W) : (s.withResponse r).draws = s.draws := rfl

@[simp] theorem withFault_j (r : FaultLatch s.W) : (s.withFault r).j = s.j := rfl
@[simp] theorem withFault_cmd (r : FaultLatch s.W) : (s.withFault r).cmd = s.cmd := rfl
@[simp] theorem withFault_stream (r : FaultLatch s.W) : (s.withFault r).stream = s.stream := rfl
@[simp] theorem withFault_responses (r : FaultLatch s.W) : (s.withFault r).responses = s.responses := rfl
@[simp] theorem withFault_mctx (r : FaultLatch s.W) : (s.withFault r).mctx = s.mctx := rfl
@[simp] theorem withFault_fault (r : FaultLatch s.W) : (s.withFault r).fault = r := rfl
@[simp] theorem withFault_draws (r : FaultLatch s.W) : (s.withFault r).draws = s.draws := rfl

@[simp] theorem withMctx_j (m : Mctx s.W) : (s.withMctx m).j = s.j := rfl
@[simp] theorem withMctx_cmd (m : Mctx s.W) : (s.withMctx m).cmd = s.cmd := rfl
@[simp] theorem withMctx_stream (m : Mctx s.W) : (s.withMctx m).stream = s.stream := rfl
@[simp] theorem withMctx_responses (m : Mctx s.W) : (s.withMctx m).responses = s.responses := rfl
@[simp] theorem withMctx_mctx (m : Mctx s.W) : (s.withMctx m).mctx = m := rfl
@[simp] theorem withMctx_fault (m : Mctx s.W) : (s.withMctx m).fault = s.fault := rfl
@[simp] theorem withMctx_draws (m : Mctx s.W) : (s.withMctx m).draws = s.draws := rfl

@[simp] theorem withDraws_j (k : Nat) : (s.withDraws k).j = s.j := rfl
@[simp] theorem withDraws_cmd (k : Nat) : (s.withDraws k).cmd = s.cmd := rfl
@[simp] theorem withDraws_stream (k : Nat) : (s.withDraws k).stream = s.stream := rfl
@[simp] theorem withDraws_responses (k : Nat) : (s.withDraws k).responses = s.responses := rfl
@[simp] theorem withDraws_mctx (k : Nat) : (s.withDraws k).mctx = s.mctx := rfl
@[simp] theorem withDraws_fault (k : Nat) : (s.withDraws k).fault = s.fault := rfl
@[simp] theorem withDraws_draws (k : Nat) : (s.withDraws k).draws = s.draws + k := rfl

@[simp] theorem withEvent_j (e : HostEvent s.W) : (s.withEvent e).j = s.j := rfl
@[simp] theorem withEvent_cmd (e : HostEvent s.W) : (s.withEvent e).cmd = s.cmd := rfl
@[simp] theorem withEvent_stream (e : HostEvent s.W) : (s.withEvent e).stream = e :: s.stream := rfl
@[simp] theorem withEvent_responses (e : HostEvent s.W) : (s.withEvent e).responses = s.responses := rfl
@[simp] theorem withEvent_mctx (e : HostEvent s.W) : (s.withEvent e).mctx = s.mctx := rfl
@[simp] theorem withEvent_fault (e : HostEvent s.W) : (s.withEvent e).fault = s.fault := rfl
@[simp] theorem withEvent_draws (e : HostEvent s.W) : (s.withEvent e).draws = s.draws := rfl

@[simp] theorem accept_j (c : Command s.W) (rest : List (HostEvent s.W)) : (s.accept c rest).j = s.j := rfl
@[simp] theorem accept_cmd (c : Command s.W) (rest : List (HostEvent s.W)) : (s.accept c rest).cmd = c := rfl
@[simp] theorem accept_stream (c : Command s.W) (rest : List (HostEvent s.W)) : (s.accept c rest).stream = rest := rfl
@[simp] theorem accept_responses (c : Command s.W) (rest : List (HostEvent s.W)) : (s.accept c rest).responses = s.responses := rfl
@[simp] theorem accept_mctx (c : Command s.W) (rest : List (HostEvent s.W)) : (s.accept c rest).mctx = s.mctx := rfl
@[simp] theorem accept_fault (c : Command s.W) (rest : List (HostEvent s.W)) : (s.accept c rest).fault = s.fault := rfl
@[simp] theorem accept_draws (c : Command s.W) (rest : List (HostEvent s.W)) : (s.accept c rest).draws = s.draws := rfl

@[simp] theorem applyReset_j (rest : List (HostEvent s.W)) : (s.applyReset rest).j = s.j := rfl
@[simp] theorem applyReset_cmd (rest : List (HostEvent s.W)) : (s.applyReset rest).cmd = Command.zero s.W := rfl
@[simp] theorem applyReset_stream (rest : List (HostEvent s.W)) : (s.applyReset rest).stream = rest := rfl
@[simp] theorem applyReset_responses (rest : List (HostEvent s.W)) : (s.applyReset rest).responses = [] := rfl
@[simp] theorem applyReset_mctx (rest : List (HostEvent s.W)) : (s.applyReset rest).mctx = Mctx.reset s.W := rfl
@[simp] theorem applyReset_fault (rest : List (HostEvent s.W)) : (s.applyReset rest).fault = FaultLatch.none := rfl
@[simp] theorem applyReset_draws (rest : List (HostEvent s.W)) : (s.applyReset rest).draws = s.draws := rfl

@[simp] theorem resetAt_j (j : Nat) : (State.resetAt j).j = j := rfl
@[simp] theorem resetAt_cmd (j : Nat) : (State.resetAt j).cmd = Command.zero (width j) := rfl
@[simp] theorem resetAt_stream (j : Nat) : (State.resetAt j).stream = [] := rfl
@[simp] theorem resetAt_responses (j : Nat) : (State.resetAt j).responses = [] := rfl
@[simp] theorem resetAt_mctx (j : Nat) : (State.resetAt j).mctx = Mctx.reset (width j) := rfl
@[simp] theorem resetAt_fault (j : Nat) : (State.resetAt j).fault = FaultLatch.none := rfl
@[simp] theorem resetAt_draws (j : Nat) : (State.resetAt j).draws = 0 := rfl

/-! ### What a run shows (70_reset_and_hazards.md R355) -/

variable {s}

@[simp] theorem observation_good (h : s.fault = .none) : s.observation = .good s.responses.reverse s.mctx := if_pos h

@[simp] theorem observation_bad (h : s.fault ≠ .none) :
    s.observation = .bad s.fault.name s.responses.reverse := if_neg h

end Sys2Proof.Machine.State
end

