-- ==== Sys2Proof/Laws/Ops.lean ====
section
/-! SUPPORT. What each shared operation can do, said once. -/

namespace Sys2Proof.Machine.State

variable (s : State)

/-- A response is the only effect of `respond`. -/
theorem respond_eq (y0 y1 : BitVec s.W) (f : Bool) :
    s.respond y0 y1 f = .next { s with responses := ⟨y0, y1, f⟩ :: s.responses } := rfl

theorem respond0_eq (y0 : BitVec s.W) :
    s.respond0 y0 = .next { s with responses := ⟨y0, 0, false⟩ :: s.responses } := rfl

theorem respondPair_eq (v : BitVec (s.W + s.W)) :
    s.respondPair v = .next { s with responses := ⟨lowHalf v, highHalf v, false⟩ :: s.responses } := rfl

theorem respondDraw_eq :
    s.respondDraw = .next { s with
      responses := ⟨Config.freeValue s.W s.draws, 0, false⟩ :: s.responses
      draws := s.draws + 1 } := rfl

theorem respondDraws_eq :
    s.respondDraws = .next { s with
      responses := ⟨Config.freeValue s.W s.draws, Config.freeValue s.W (s.draws + 1), false⟩ :: s.responses
      draws := s.draws + 2 } := rfl

theorem respondContext_eq (m : Mctx s.W) :
    s.respondContext m = .next { s with mctx := m, responses := ⟨m.one, m.ninv, false⟩ :: s.responses } := rfl

/-- The latch is the only effect of a fault (60_exceptions.md R303). -/
theorem raise_eq (r : FaultLatch s.W) : s.raise r = .next { s with fault := r } := rfl

theorem requireContext_valid (h : s.mctx.valid = true) (k : Result) : s.requireContext k = k := by
  simp [requireContext, h]

theorem requireContext_invalid (h : s.mctx.valid = false) (k : Result) :
    s.requireContext k = .next { s with fault := .noContext s.cmd.word } := by
  simp [requireContext, h, raise_eq]

theorem requireNonzero_pos {N : Nat} {d : BitVec N} (h : d ≠ 0) (slot : Slot) (k : Result) :
    s.requireNonzero d slot k = k := if_neg h

theorem requireNonzero_zero {N : Nat} {d : BitVec N} (h : d = 0) (slot : Slot) (k : Result) :
    s.requireNonzero d slot k = .next { s with fault := .divideByZero s.cmd.word slot } := if_pos h

theorem requireBelow_below {N : Nat} {nh d : BitVec N} (h : nh.toNat < d.toNat) (k : Result) :
    s.requireBelow nh d k = k := if_neg (by omega)

theorem requireBelow_above {N : Nat} {nh d : BitVec N} (h : d.toNat ≤ nh.toNat) (k : Result) :
    s.requireBelow nh d k = .next { s with fault := .divideOverflow s.cmd.word } := if_pos h

end Sys2Proof.Machine.State
end

