-- ==== Sys2Proof/Laws/PerInstr.lean ====
section
/-! SUPPORT. One lemma per instruction about its encoding. -/

namespace Sys2Proof.Laws.EncodedFields

/-- The word of an instruction has `RSV = 0` and an assigned `OPC`, sets `S` and `ALG` only on the operations that have them,
and a nonzero `M` only on EXTZ and EXTS (30_encoding.md R82 to R85). -/
def Statement (i : Instr) : Prop :=
  reservedOf (encode i) = 0 ∧ opcOf (encode i) ∈ assignedOpcodes ∧
  (signOf (encode i) = true → opcOf (encode i) ∈ signedOpcodes) ∧
  (algOf (encode i) = true → opcOf (encode i) = 0x30) ∧
  (widthCodeOf (encode i) ≠ 0 → opcOf (encode i) = 0x54)

theorem wadc : Statement .wadc := by unfold Statement; decide

theorem wsbc : Statement .wsbc := by unfold Statement; decide

theorem wmul : Statement .wmul := by unfold Statement; decide

theorem wdiv : Statement .wdiv := by unfold Statement; decide

theorem wclz : Statement .wclz := by unfold Statement; decide

theorem add : Statement .add := by unfold Statement; decide

theorem sub : Statement .sub := by unfold Statement; decide

theorem adc : Statement .adc := by unfold Statement; decide

theorem sbc : Statement .sbc := by unfold Statement; decide

theorem neg : Statement .neg := by unfold Statement; decide

theorem mul : Statement .mul := by unfold Statement; decide

theorem mulw : Statement .mulw := by unfold Statement; decide

theorem mulhi : Statement .mulhi := by unfold Statement; decide

theorem mulhia : Statement .mulhia := by unfold Statement; decide

theorem divremu (alg : Alg) : Statement (.divremu alg) := by cases alg <;> (unfold Statement; decide)

theorem divrems (alg : Alg) : Statement (.divrems alg) := by cases alg <;> (unfold Statement; decide)

theorem divw : Statement .divw := by unfold Statement; decide

theorem recip : Statement .recip := by unfold Statement; decide

theorem divr : Statement .divr := by unfold Statement; decide

theorem bitAnd : Statement .bitAnd := by unfold Statement; decide

theorem bitOr : Statement .bitOr := by unfold Statement; decide

theorem bitXor : Statement .bitXor := by unfold Statement; decide

theorem bitNot : Statement .bitNot := by unfold Statement; decide

theorem shl : Statement .shl := by unfold Statement; decide

theorem shr : Statement .shr := by unfold Statement; decide

theorem sar : Statement .sar := by unfold Statement; decide

theorem clz : Statement .clz := by unfold Statement; decide

theorem cmpu : Statement .cmpu := by unfold Statement; decide

theorem cmps : Statement .cmps := by unfold Statement; decide

theorem extz (m : BitVec 4) : Statement (.extz m) := by unfold Statement; revert m; decide

theorem exts (m : BitVec 4) : Statement (.exts m) := by unfold Statement; revert m; decide

theorem pow : Statement .pow := by unfold Statement; decide

theorem powm : Statement .powm := by unfold Statement; decide

theorem gcd : Statement .gcd := by unfold Statement; decide

theorem minit : Statement .minit := by unfold Statement; decide

theorem mreduce : Statement .mreduce := by unfold Statement; decide

theorem mmul : Statement .mmul := by unfold Statement; decide

theorem mpow : Statement .mpow := by unfold Statement; decide

theorem mto : Statement .mto := by unfold Statement; decide

theorem mfrom : Statement .mfrom := by unfold Statement; decide

end Sys2Proof.Laws.EncodedFields
end

