-- ==== Sys2Proof/Laws/Tree.lean ====
section
/-! SUPPORT. The halves of a value, as numbers and bit by bit. -/

namespace Sys2Proof.Machine

variable {j : Nat}

theorem loPart_toNat (v : BitVec (width (j + 1))) : (loPart v).toNat = v.toNat % 2 ^ width j := by
  simp [loPart, BitVec.extractLsb'_toNat]

theorem hiPart_toNat (v : BitVec (width (j + 1))) : (hiPart v).toNat = v.toNat / 2 ^ width j := highHalf_toNat v

theorem ofParts_toNat (h l : BitVec (width j)) : (ofParts h l).toNat = h.toNat * 2 ^ width j + l.toNat := uintPair_eq h l

theorem toNat_eq_parts (v : BitVec (width (j + 1))) :
    v.toNat = (hiPart v).toNat * 2 ^ width j + (loPart v).toNat := by
  rw [hiPart_toNat, loPart_toNat]; exact (Nat.div_add_mod' _ _).symm

theorem loPart_getLsbD (v : BitVec (width (j + 1))) (i : Nat) :
    (loPart v).getLsbD i = (decide (i < width j) && v.getLsbD i) := by
  simp [loPart, BitVec.getLsbD_extractLsb']

theorem hiPart_getLsbD (v : BitVec (width (j + 1))) (i : Nat) :
    (hiPart v).getLsbD i = (decide (i < width j) && v.getLsbD (width j + i)) := by
  simp [hiPart, BitVec.getLsbD_extractLsb']

/-- The sign bit is in the high half. -/
theorem hiPart_msb (v : BitVec (width (j + 1))) : (hiPart v).msb = v.msb := by
  have hpos := width_pos j
  rw [BitVec.msb_eq_getLsbD_last, BitVec.msb_eq_getLsbD_last, hiPart_getLsbD]
  have hlt : width j - 1 < width j := by omega
  simp only [hlt, decide_true, Bool.true_and]
  congr 1
  show _ = width j + width j - 1
  omega

theorem ofParts_getLsbD (h l : BitVec (width j)) (i : Nat) :
    (ofParts h l).getLsbD i = if i < width j then l.getLsbD i else h.getLsbD (i - width j) := by
  show (h ++ l).getLsbD i = _
  rw [BitVec.getLsbD_append]

end Sys2Proof.Machine
end

