-- ==== Sys2Proof/Tests/Slice0.lean ====
section
/-! SUPPORT. Tests: ill-formed commands, every command's word written out from 30_encoding.md R81 and R86, vectors of
spec/95_test_vectors.md, and for each statement with hypotheses a state and operands that meet them. -/

namespace Sys2Proof.Tests

open Sys2Proof.Machine

set_option Elab.async false

/-! ### Helpers -/

/-- A command, its word and slots given as numbers. -/
def command (j word x0 x1 x2 x3 : Nat) : Command (width j) :=
  ⟨BitVec.ofNat 16 word, BitVec.ofNat _ x0, BitVec.ofNat _ x1, BitVec.ofNat _ x2, BitVec.ofNat _ x3⟩

/-- A unit right after reset, with a command presented to it, and with the context of `modulus` (0: no context). -/
def unit (j word x0 x1 x2 x3 modulus : Nat) : State :=
  { State.resetAt j with
    cmd := command j word x0 x1 x2 x3
    mctx := if modulus = 0 then Mctx.reset (width j) else contextOf (BitVec.ofNat _ modulus) }

/-- The same unit, with the host about to present the command. -/
def about (j word x0 x1 x2 x3 modulus : Nat) : State :=
  { unit j 0 0 0 0 0 modulus with stream := [.command (command j word x0 x1 x2 x3)] }

/-- The fault and the responses after a step. -/
def answerOf : Host.Outcome State Fault Refusal → FaultName × List (Nat × Nat × Bool)
  | .next t => (t.fault.name, t.responses.map fun r => (r.y0.toNat, r.y1.toNat, r.f))
  | .fault (.latched _ (.bad n rs)) => (n, rs.reverse.map fun r => (r.y0.toNat, r.y1.toNat, r.f))
  | .fault (.latched _ (.good _ _)) => (.none, [])
  | .refused _ => (.none, [])

/-- One step on one command. -/
def runOne (j word x0 x1 x2 x3 modulus : Nat) : FaultName × List (Nat × Nat × Bool) :=
  answerOf (step (about j word x0 x1 x2 x3 modulus))

/-! ### Well-formedness (30_encoding.md R85) -/

theorem test_extz_source_wider_than_unit_is_ill_formed :
    (Instr.extz 5).wellFormed 128 = false ∧ (Instr.extz 4).wellFormed 64 = false ∧
    (Instr.extz 15).wellFormed 128 = false := by decide

theorem test_exts_source_wider_than_unit_is_ill_formed :
    (Instr.exts 5).wellFormed 128 = false ∧ (Instr.exts 4).wellFormed 64 = false ∧
    (Instr.exts 15).wellFormed 128 = false := by decide

theorem test_source_as_wide_as_unit_is_well_formed :
    (Instr.extz 4).wellFormed 128 = true ∧ (Instr.exts 3).wellFormed 64 = true := by decide

/-! ### Decoding: words written out as `RSV M ALG S OPC` -/

theorem test_decode_word_primitives :
    decode 128 0b00_0000_0_0_00000001#16 = .ok .wadc ∧ decode 128 0b00_0000_0_0_00000010#16 = .ok .wsbc ∧
    decode 128 0b00_0000_0_0_00000011#16 = .ok .wmul ∧ decode 128 0b00_0000_0_0_00000100#16 = .ok .wdiv ∧
    decode 128 0b00_0000_0_0_00000101#16 = .ok .wclz := by decide

theorem test_decode_adder :
    decode 128 0b00_0000_0_0_00010000#16 = .ok .add ∧ decode 128 0b00_0000_0_0_00010001#16 = .ok .sub ∧
    decode 128 0b00_0000_0_0_00010010#16 = .ok .adc ∧ decode 128 0b00_0000_0_0_00010011#16 = .ok .sbc ∧
    decode 128 0b00_0000_0_0_00010100#16 = .ok .neg := by decide

theorem test_decode_multiplier :
    decode 128 0b00_0000_0_0_00100000#16 = .ok .mul ∧ decode 128 0b00_0000_0_0_00100001#16 = .ok .mulw ∧
    decode 128 0b00_0000_0_0_00100010#16 = .ok .mulhi ∧ decode 128 0b00_0000_0_0_00100011#16 = .ok .mulhia := by decide

theorem test_decode_divider :
    decode 128 0b00_0000_0_0_00110000#16 = .ok (.divremu .reciprocal) ∧
    decode 128 0b00_0000_1_0_00110000#16 = .ok (.divremu .exact) ∧
    decode 128 0b00_0000_0_1_00110000#16 = .ok (.divrems .reciprocal) ∧
    decode 128 0b00_0000_1_1_00110000#16 = .ok (.divrems .exact) ∧
    decode 128 0b00_0000_0_0_00110001#16 = .ok .divw ∧ decode 128 0b00_0000_0_0_00110010#16 = .ok .recip ∧
    decode 128 0b00_0000_0_0_00110011#16 = .ok .divr := by decide

theorem test_decode_bitwise_and_shifts :
    decode 128 0b00_0000_0_0_01000000#16 = .ok .bitAnd ∧ decode 128 0b00_0000_0_0_01000001#16 = .ok .bitOr ∧
    decode 128 0b00_0000_0_0_01000010#16 = .ok .bitXor ∧ decode 128 0b00_0000_0_0_01000011#16 = .ok .bitNot ∧
    decode 128 0b00_0000_0_0_01001000#16 = .ok .shl ∧ decode 128 0b00_0000_0_0_01001001#16 = .ok .shr ∧
    decode 128 0b00_0000_0_1_01001001#16 = .ok .sar ∧ decode 128 0b00_0000_0_0_01001100#16 = .ok .clz := by decide

theorem test_decode_compare_and_convert :
    decode 128 0b00_0000_0_0_01010000#16 = .ok .cmpu ∧ decode 128 0b00_0000_0_1_01010000#16 = .ok .cmps ∧
    decode 128 0b00_0010_0_0_01010100#16 = .ok (.extz 2) ∧ decode 128 0b00_0100_0_1_01010100#16 = .ok (.exts 4) ∧
    decode 256 0b00_0101_0_0_01010100#16 = .ok (.extz 5) := by decide

theorem test_decode_power_and_gcd :
    decode 128 0b00_0000_0_0_01100000#16 = .ok .pow ∧ decode 128 0b00_0000_0_0_01100001#16 = .ok .powm ∧
    decode 128 0b00_0000_0_0_01100010#16 = .ok .gcd := by decide

theorem test_decode_montgomery :
    decode 128 0b00_0000_0_0_01110000#16 = .ok .minit ∧ decode 128 0b00_0000_0_0_01110001#16 = .ok .mreduce ∧
    decode 128 0b00_0000_0_0_01110010#16 = .ok .mmul ∧ decode 128 0b00_0000_0_0_01110011#16 = .ok .mpow ∧
    decode 128 0b00_0000_0_0_01110100#16 = .ok .mto ∧ decode 128 0b00_0000_0_0_01110101#16 = .ok .mfrom := by decide

/-- V176 to V184, V186, V189, V190, V192. -/
theorem test_decode_illegal :
    decode 128 0x0000#16 = .error .unassignedOpcode ∧ decode 128 0x4010#16 = .error .reservedBits ∧
    decode 128 0x8010#16 = .error .reservedBits ∧ decode 128 0x0110#16 = .error .noSignedForm ∧
    decode 128 0x0210#16 = .error .noAlgorithmSelect ∧ decode 128 0x0410#16 = .error .noWidthCode ∧
    decode 128 0x004A#16 = .error .unassignedOpcode ∧ decode 128 0x0076#16 = .error .unassignedOpcode ∧
    decode 128 0x00FF#16 = .error .unassignedOpcode ∧ decode 128 0x0348#16 = .error .noSignedForm ∧
    decode 128 0x1454#16 = .error .sourceTooWide ∧ decode 128 0x3C54#16 = .error .sourceTooWide ∧
    decode 64 0x1054#16 = .error .sourceTooWide := by decide

/-! ### Vectors of spec/95_test_vectors.md, by their numbers -/

/-- V2, V4. -/
theorem test_wadc :
    runOne 1 0x0001 0xffffffffffffffff 0xffffffffffffffff 1 0 0 = (.none, [(0xffffffffffffffff, 0, true)]) ∧
    runOne 1 0x0001 0x10000000000000005 1 0 0 0 = (.none, [(6, 0, false)]) := by decide +kernel

/-- V7, V9. -/
theorem test_wsbc :
    runOne 1 0x0002 5 5 1 0 0 = (.none, [(0xffffffffffffffff, 0, true)]) ∧
    runOne 1 0x0002 0 0xffffffffffffffff 1 0 0 = (.none, [(0, 0, true)]) := by decide +kernel

/-- V10, V13. -/
theorem test_wmul :
    runOne 1 0x0003 0xffffffffffffffff 0xffffffffffffffff 0 0 0 = (.none, [(1, 0xfffffffffffffffe, false)]) ∧
    runOne 1 0x0003 0xffffffffffffffffffffffffffffffff 2 0 0 0 =
      (.none, [(0xfffffffffffffffe, 1, false)]) := by decide +kernel

/-- V16, V18. -/
theorem test_wdiv :
    runOne 1 0x0004 0xfffffffffffffffe 0xffffffffffffffff 0xffffffffffffffff 0 0 =
      (.none, [(0xffffffffffffffff, 0xfffffffffffffffe, false)]) ∧
    runOne 1 0x0004 0 1 0 0 0 = (.divideByZero, []) := by decide +kernel

/-- V21, V22. -/
theorem test_wclz :
    runOne 1 0x0005 0x10000000000000000 0 0 0 0 = (.none, [(64, 0, false)]) ∧
    runOne 1 0x0005 0x8000000000000000 0 0 0 0 = (.none, [(0, 0, false)]) := by decide +kernel

/-- V24, V23. -/
theorem test_add :
    runOne 1 0x0010 0xffffffffffffffff 1 0 0 0 = (.none, [(0x10000000000000000, 0, false)]) ∧
    runOne 1 0x0010 0xffffffffffffffffffffffffffffffff 1 0 0 0 = (.none, [(0, 0, false)]) := by decide +kernel

/-- V26, V28. -/
theorem test_sub :
    runOne 1 0x0011 0 1 0 0 0 = (.none, [(0xffffffffffffffffffffffffffffffff, 0, false)]) ∧
    runOne 1 0x0011 0x80000000000000000000000000000000 1 0 0 0 =
      (.none, [(0x7fffffffffffffffffffffffffffffff, 0, false)]) := by decide +kernel

/-- V31, V32. -/
theorem test_adc :
    runOne 1 0x0012 0xffffffffffffffffffffffffffffffff 0xffffffffffffffffffffffffffffffff 1 0 0 =
      (.none, [(0xffffffffffffffffffffffffffffffff, 0, true)]) ∧
    runOne 1 0x0012 5 6 2 0 0 = (.none, [(11, 0, false)]) := by decide +kernel

/-- V33, V35. -/
theorem test_sbc :
    runOne 1 0x0013 0 0 1 0 0 = (.none, [(0xffffffffffffffffffffffffffffffff, 0, true)]) ∧
    runOne 1 0x0013 0 0xffffffffffffffffffffffffffffffff 1 0 0 = (.none, [(0, 0, true)]) := by decide +kernel

/-- V38, V37. -/
theorem test_neg :
    runOne 1 0x0014 0x80000000000000000000000000000000 0 0 0 0 =
      (.none, [(0x80000000000000000000000000000000, 0, false)]) ∧
    runOne 1 0x0014 1 0 0 0 0 = (.none, [(0xffffffffffffffffffffffffffffffff, 0, false)]) := by decide +kernel

/-- V42, V43. -/
theorem test_mul :
    runOne 1 0x0020 0xffffffffffffffffffffffffffffffff 3 0 0 0 =
      (.none, [(0xfffffffffffffffffffffffffffffffd, 0, false)]) ∧
    runOne 1 0x0020 0x10000000000000000 0x10000000000000000 0 0 0 = (.none, [(0, 0, false)]) := by decide +kernel

/-- V44, V46. -/
theorem test_mulw :
    runOne 1 0x0021 0xffffffffffffffffffffffffffffffff 0xffffffffffffffffffffffffffffffff 0 0 0 =
      (.none, [(1, 0xfffffffffffffffffffffffffffffffe, false)]) ∧
    runOne 1 0x0021 0x123456789abcdeffedcba9876543210 0xf1e2d3c4b5a69788796a5b4c3d2e1f0 0 0 0 =
      (.none, [(0x3b18e5a14be56de55ef9a562300eff00, 0x113366ab0066de65dc4195d90b2c3c, false)]) := by decide +kernel

/-- V48, V47. -/
theorem test_mulhi :
    runOne 1 0x0022 0xffffffffffffffffffffffffffffffff 0xffffffffffffffffffffffffffffffff 0 0 0 =
      (.none, [(0xfffffffffffffffffffffffffffffffe, 0, false)]) ∧
    runOne 1 0x0022 0xffffffffffffffffffffffffffffffff 2 0 0 0 = (.none, [(1, 0, false)]) := by decide +kernel

/-- V57, V59. -/
theorem test_divremu :
    runOne 1 0x0030 0xffffffffffffffffffffffffffffffff 0x10000000000000001 0 0 0 =
      (.none, [(0xffffffffffffffff, 0, false)]) ∧
    runOne 1 0x0230 0xffffffffffffffffffffffffffffffff 0x80000000000000000000000000000000 0 0 0 =
      (.none, [(1, 0x7fffffffffffffffffffffffffffffff, false)]) := by decide +kernel

/-- V69, V65. -/
theorem test_divrems :
    runOne 1 0x0330 0xfffffffffffffffffffffffffffffff9 2 0 0 0 =
      (.none, [(0xfffffffffffffffffffffffffffffffd, 0xffffffffffffffffffffffffffffffff, false)]) ∧
    runOne 1 0x0130 0x80000000000000000000000000000000 0xffffffffffffffffffffffffffffffff 0 0 0 =
      (.none, [(0x80000000000000000000000000000000, 0, false)]) := by decide +kernel

/-- V73, V74. -/
theorem test_divw :
    runOne 1 0x0031 6 0xffffffffffffffffffffffffffffffff 7 0 0 =
      (.none, [(0xffffffffffffffffffffffffffffffff, 6, false)]) ∧
    runOne 1 0x0031 7 0 7 0 0 = (.divideOverflow, []) := by decide +kernel

/-- V77. -/
theorem test_recip :
    runOne 1 0x0032 0 0 0 0 0 = (.divideByZero, []) := by decide +kernel

/-- V80. -/
theorem test_divr :
    runOne 1 0x0033 100 0 0 0 0 = (.divideByZero, []) := by decide +kernel

/-- V81. -/
theorem test_and :
    runOne 1 0x0040 0xf0f0f0f0f0f0f0f00f0f0f0f0f0f0f0f 0xff00ff00ff00ff00ff00ff00ff00ff00 0 0 0 =
      (.none, [(0xf000f000f000f0000f000f000f000f00, 0, false)]) := by decide +kernel

/-- V82. -/
theorem test_or :
    runOne 1 0x0041 0xf0f0f0f0f0f0f0f00f0f0f0f0f0f0f0f 0xff00ff00ff00ff00ff00ff00ff00ff00 0 0 0 =
      (.none, [(0xfff0fff0fff0fff0ff0fff0fff0fff0f, 0, false)]) := by decide +kernel

/-- V83. -/
theorem test_xor :
    runOne 1 0x0042 0xf0f0f0f0f0f0f0f00f0f0f0f0f0f0f0f 0xff00ff00ff00ff00ff00ff00ff00ff00 0 0 0 =
      (.none, [(0xff00ff00ff00ff0f00ff00ff00ff00f, 0, false)]) := by decide +kernel

/-- V86. -/
theorem test_not :
    runOne 1 0x0043 0xf0f0f0f0f0f0f0f00f0f0f0f0f0f0f0f 0 0 0 0 =
      (.none, [(0xf0f0f0f0f0f0f0ff0f0f0f0f0f0f0f0, 0, false)]) := by decide +kernel

/-- V90, V92. -/
theorem test_shl :
    runOne 1 0x0048 0x8000000000000001 1 0 0 0 = (.none, [(0x10000000000000002, 0, false)]) ∧
    runOne 1 0x0048 1 0xffffffffffffffffffffffffffffffff 0 0 0 = (.none, [(0, 0, false)]) := by decide +kernel

/-- V94, V95. -/
theorem test_shr :
    runOne 1 0x0049 0x10000000000000000 1 0 0 0 = (.none, [(0x8000000000000000, 0, false)]) ∧
    runOne 1 0x0049 0xffffffffffffffffffffffffffffffff 128 0 0 0 = (.none, [(0, 0, false)]) := by decide +kernel

/-- V102, V99. -/
theorem test_sar :
    runOne 1 0x0149 0xfffffffffffffffffffffffffffffff9 1 0 0 0 =
      (.none, [(0xfffffffffffffffffffffffffffffffc, 0, false)]) ∧
    runOne 1 0x0149 0xffffffffffffffffffffffffffffffff 0xffffffffffffffffffffffffffffffff 0 0 0 =
      (.none, [(0xffffffffffffffffffffffffffffffff, 0, false)]) := by decide +kernel

/-- V106, V104. -/
theorem test_clz :
    runOne 1 0x004C 0x10000000000000000 0 0 0 0 = (.none, [(63, 0, false)]) ∧
    runOne 1 0x004C 0 0 0 0 0 = (.none, [(128, 0, false)]) := by decide +kernel

/-- V109, V114. -/
theorem test_cmpu :
    runOne 1 0x0050 0 0xffffffffffffffffffffffffffffffff 0 0 0 =
      (.none, [(0xffffffffffffffffffffffffffffffff, 0, false)]) ∧
    runOne 1 0x0050 0x10000000000000000 0xffffffffffffffff 0 0 0 = (.none, [(1, 0, false)]) := by decide +kernel

/-- V110, V115. -/
theorem test_cmps :
    runOne 1 0x0150 0 0xffffffffffffffffffffffffffffffff 0 0 0 = (.none, [(1, 0, false)]) ∧
    runOne 1 0x0150 0xfffffffffffffffffffffffffffffffe 0xffffffffffffffffffffffffffffffff 0 0 0 =
      (.none, [(0xffffffffffffffffffffffffffffffff, 0, false)]) := by decide +kernel

/-- V116, V122. -/
theorem test_extz :
    runOne 1 0x0054 511 0 0 0 0 = (.none, [(255, 0, false)]) ∧
    runOne 1 0x0854 0xffffffffffffffffffffffff80000001 0 0 0 0 = (.none, [(0x80000001, 0, false)]) := by decide +kernel

/-- V121, V117. -/
theorem test_exts :
    runOne 1 0x1154 0xf0f0f0f0f0f0f0f00f0f0f0f0f0f0f0f 0 0 0 0 =
      (.none, [(0xf0f0f0f0f0f0f0f00f0f0f0f0f0f0f0f, 0, false)]) ∧
    runOne 1 0x0154 128 0 0 0 0 = (.none, [(0xffffffffffffffffffffffffffffff80, 0, false)]) := by decide +kernel

/-- V131, V126. -/
theorem test_pow :
    runOne 1 0x0060 3 0xffffffffffffffffffffffffffffffff 0 0 0 =
      (.none, [(0xaaaaaaaaaaaaaaaaaaaaaaaaaaaaaaab, 0, false)]) ∧
    runOne 1 0x0060 0 0 0 0 0 = (.none, [(1, 0, false)]) := by decide +kernel

/-- V136, V132. -/
theorem test_powm :
    runOne 1 0x0061 2 0xffffffffffffffffffffffffffffffff 0x7fffffffffffffffffffffffffffffff 0 0 =
      (.none, [(8, 0, false)]) ∧
    runOne 1 0x0061 4 13 497 0 0 = (.none, [(445, 0, false)]) := by decide +kernel

/-- V143, V140. -/
theorem test_gcd :
    runOne 1 0x0062 0xffffffffffffffffffffffffffffffff 0xffffffffffffffff 0 0 0 =
      (.none, [(0xffffffffffffffff, 0, false)]) ∧
    runOne 1 0x0062 0 0 0 0 0 = (.none, [(0, 0, false)]) := by decide +kernel

/-- V149, V147. -/
theorem test_minit :
    runOne 1 0x0070 97 0 0 0 0 = (.none, [(35, 0x5f02a3a0fd5c5f02a3a0fd5c5f02a3a1, false)]) ∧
    runOne 1 0x0070 96 0 0 0 0 = (.evenModulus, []) := by decide +kernel

/-- V163, V162. -/
theorem test_mreduce :
    runOne 1 0x0071 96 96 0 0 97 = (.none, [(35, 0, false)]) ∧
    runOne 1 0x0071 1000 0 0 0 97 = (.none, [(84, 0, false)]) := by decide +kernel

/-- V155, V156. -/
theorem test_mmul :
    runOne 1 0x0072 78 51 0 0 97 = (.none, [(61, 0, false)]) ∧
    runOne 1 0x0072 35 51 0 0 97 = (.none, [(51, 0, false)]) := by decide +kernel

/-- V166, V169. -/
theorem test_mpow :
    runOne 1 0x0073 78 3 0 0 97 = (.none, [(10, 0, false)]) ∧
    runOne 1 0x0073 78 0xffffffffffffffffffffffffffffffff 0 0 97 = (.none, [(39, 0, false)]) := by decide +kernel

/-- V154, V146. -/
theorem test_mto :
    runOne 1 0x0074 0xffffffffffffffffffffffffffffffff 0 0 0 97 = (.none, [(26, 0, false)]) ∧
    runOne 1 0x0074 5 0 0 0 0 = (.noContext, []) := by decide +kernel

/-- V158, V161. -/
theorem test_mfrom :
    runOne 1 0x0075 61 0 0 0 97 = (.none, [(35, 0, false)]) ∧
    runOne 1 0x0075 0xffffffffffffffffffffffffffffffff 0 0 0 97 = (.none, [(37, 0, false)]) := by decide +kernel

/-- V124, V176: an illegal word faults. -/
theorem test_illegal_word_faults :
    runOne 1 0x1454 0xffffffffffffffffffffffffffffffff 0 0 0 0 = (.illegalCommand, []) ∧
    runOne 1 0x0000 0 0 0 0 0 = (.illegalCommand, []) := by decide +kernel

/-- V203, V204: the unit at `W = 64`. -/
theorem test_width64 :
    runOne 0 0x0149 0x8000000000000000 63 0 0 0 = (.none, [(0xffffffffffffffff, 0, false)]) ∧
    runOne 0 0x0070 97 0 0 0 0 = (.none, [(61, 0xa3a0fd5c5f02a3a1, false)]) := by decide +kernel

/-- V50: MULHIA returns the implementation's parameter. -/
theorem test_mulhia (a b : Nat) :
    Returns .mulhia (unit 1 0x0023 a b 0 0 0) (Config.mulhiAprxFn 128 (BitVec.ofNat _ a) (BitVec.ofNat _ b)) := rfl

/-- V76: RECIP returns the implementation's parameter in two slots. -/
theorem test_recip_parameter :
    Answers .recip (unit 1 0x0032 7 0 0 0 0) (lowHalf (Config.recipFn 128 7)) (highHalf (Config.recipFn 128 7)) false := rfl

/-- V164: MREDUCE out of range returns a draw. -/
theorem test_mreduce_draw :
    exec .mreduce (unit 1 0x0071 0 97 0 0 97) =
      .next { unit 1 0x0071 0 97 0 0 97 with responses := [⟨Config.freeValue 128 0, 0, false⟩], draws := 1 } := rfl

/-! ### Each statement's hypotheses are met -/

/-- A state in which DIVR has the reciprocal that RECIP of `r` returns. -/
def withReciprocal (x0 x1 : Nat) (r : BitVec 128) : State :=
  { unit 1 0x0033 0 0 0 0 0 with
    cmd := ⟨0x0033#16, BitVec.ofNat 128 x0, BitVec.ofNat 128 x1,
      lowHalf (Config.recipFn 128 r), highHalf (Config.recipFn 128 r)⟩ }

/-- A state in which DIVR has a reciprocal that is not the one of `r`: its low half is inverted. -/
def withWrongReciprocal (x0 x1 : Nat) (r : BitVec 128) : State :=
  { unit 1 0x0033 0 0 0 0 0 with
    cmd := ⟨0x0033#16, BitVec.ofNat 128 x0, BitVec.ofNat 128 x1,
      ~~~ lowHalf (Config.recipFn 128 r), highHalf (Config.recipFn 128 r)⟩ }

theorem halves_append {W : Nat} (v : BitVec (W + W)) : highHalf v ++ lowHalf v = v := by
  rw [← BitVec.toNat_inj]
  have h := uintPair_eq (highHalf v) (lowHalf v)
  rw [uintPair] at h
  rw [h, highHalf_toNat, lowHalf_toNat]
  exact Nat.div_add_mod' _ _

theorem not_ne_self {W : Nat} (hW : 0 < W) (v : BitVec W) : ~~~ v ≠ v := by
  intro h
  have h0 := congrArg (fun b => BitVec.getLsbD b 0) h
  simp [hW] at h0

theorem wrongHalves_ne {W : Nat} (hW : 0 < W) (v : BitVec (W + W)) : highHalf v ++ ~~~ lowHalf v ≠ v := by
  intro h
  apply not_ne_self hW (lowHalf v)
  have h2 := congrArg (fun b : BitVec (W + W) => b.setWidth W) (h.trans (halves_append v).symm)
  simpa [BitVec.setWidth_append] using h2

/-- The context of 97 is sound. -/
theorem context97_holds : (contextOf (97 : BitVec (width 1))).Holds :=
  fun _ => ⟨by decide, by decide +kernel, rfl, by decide +kernel⟩

theorem witness_DecodeOfEncodeIsIdentity :
    (Instr.exts 4).wellFormed (width 1) = true ∧ (Instr.extz 3).wellFormed (width 0) = true ∧
    (Instr.divrems .exact).wellFormed (width 0) = true := by decide

theorem witness_AcceptedWordsAreEncodings :
    decode 128 0x1154#16 = .ok (.exts 4) ∧ decode 128 0x0330#16 = .ok (.divrems .exact) := by decide

/-- One illegal word of each kind, and the opcodes at both ends of each illegal range; their legal neighbours. -/
theorem witness_IllegalWordsFault :
    (about 1 0x0006 0 0 0 0 0).stream = [.command (command 1 0x0006 0 0 0 0)] ∧
    (about 1 0x0006 0 0 0 0 0).fault = .none ∧
    (∀ w ∈ [0x4010, 0x8001, 0x0000, 0x0006, 0x000F, 0x0015, 0x001F, 0x0024, 0x002F, 0x0034, 0x003F, 0x0044, 0x0047, 0x004A,
        0x004B, 0x004D, 0x004F, 0x0051, 0x0053, 0x0055, 0x005F, 0x0063, 0x006F, 0x0076, 0x00FF, 0x0148, 0x0249, 0x0430,
        0x1454],
      decode 128 (BitVec.ofNat 16 w) ≠ .ok .add ∧ (decode 128 (BitVec.ofNat 16 w)).toOption = none) ∧
    (∀ w ∈ [0x0001, 0x0005, 0x0010, 0x0014, 0x0020, 0x0023, 0x0030, 0x0033, 0x0040, 0x0043, 0x0048, 0x0049, 0x004C, 0x0050,
        0x0054, 0x0060, 0x0062, 0x0070, 0x0075, 0x0330, 0x0149, 0x0150, 0x1154],
      (decode 128 (BitVec.ofNat 16 w)).toOption ≠ none) := by decide

theorem witness_StepRunsDecodedCommand :
    (about 1 0x0010 2 3 0 0 0).stream = [.command (command 1 0x0010 2 3 0 0)] ∧
    (about 1 0x0010 2 3 0 0 0).fault = .none ∧
    decode (about 1 0x0010 2 3 0 0 0).W (command 1 0x0010 2 3 0 0).word = .ok .add := by decide

/-- A step that latches a fault; a latched unit with a command, with reset, and with nothing next in the stream. -/
theorem witness_FaultsArePreciseAndStayLatched :
    let a : State := about 1 0x0074 5 0 0 0 0
    let s : State := { about 1 0x0010 2 3 0 0 0 with fault := .divideOverflow 0x0004#16 }
    let r : State := { unit 1 0 0 0 0 0 0 with stream := [.reset], fault := .divideOverflow 0x0004#16 }
    let w : State := { unit 1 0 0 0 0 0 0 with fault := .divideOverflow 0x0004#16 }
    (∃ t, step a = .next t ∧ a.fault = .none ∧ t.fault.name ≠ .none) ∧
    s.fault ≠ .none ∧ s.stream = [.command (command 1 0x0010 2 3 0 0)] ∧
    (∃ t, step r = .next t ∧ t.fault.name = .none) ∧ w.stream = [] :=
  ⟨⟨_, rfl, rfl, by decide⟩, by decide, rfl, ⟨_, rfl, rfl⟩, rfl⟩

theorem witness_ResetClearsContextAndFault :
    ({ unit 1 0 0 0 0 0 97 with stream := [.reset, .reset] } : State).stream = [.reset, .reset] := rfl

/-- A step that waits, and one that takes an event. -/
theorem witness_StepTakesTheFirstEvent :
    (∃ t, step (unit 1 0 0 0 0 0 0) = .next t) ∧ (∃ t, step (about 1 0x0010 2 3 0 0 0) = .next t) :=
  ⟨⟨_, rfl⟩, ⟨_, rfl⟩⟩

/-- A list of two commands that both complete, and one whose second command faults with a third behind it: what each run
shows. -/
theorem witness_RunsShowResponsesOrTheFault :
    let good : State := { unit 1 0 0 0 0 0 0 with
      stream := [command 1 0x0010 2 3 0 0, command 1 0x0011 2 3 0 0].map .command }
    let bad : State := { unit 1 0 0 0 0 0 0 with
      stream := [command 1 0x0010 2 3 0 0, command 1 0x0032 0 0 0 0, command 1 0x0010 2 3 0 0].map .command }
    good.fault = .none ∧ bad.fault = .none ∧
    (∃ t : State, Sys2Proof.core.run 2 good = .next t ∧ t.EndedWell ∧ t.responses.length = 2) ∧
    Sys2Proof.core.run 3 bad = .fault (.latched 1 (.bad .divideByZero [⟨5, 0, false⟩])) :=
  ⟨rfl, rfl, ⟨_, rfl, ⟨rfl, rfl⟩, rfl⟩, rfl⟩

/-- One state for each clause, the boundary `nh = d` of overflow and `nh = d - 1` below it among them. -/
theorem witness_CommandsFaultInExactlyTheseCases :
    (readsContext .mto = true ∧ (unit 1 0x0074 5 0 0 0 0).mctx.valid = false) ∧
    (unit 1 0x0070 96 0 0 0 0).X0.toNat % 2 = 0 ∧
    (unit 1 0x0032 0 0 0 0 0).X0.toNat = 0 ∧
    (unit 1 0x0030 1 0 0 0 0).X1.toNat = 0 ∧
    (unit 1 0x0031 0 1 0 0 0).X2.toNat = 0 ∧
    (unit 1 0x0004 0 1 (2 ^ 64) 0 0).X2.toNat % 2 ^ 64 = 0 ∧
    ((unit 1 0x0031 7 0 7 0 0).X2.toNat ≠ 0 ∧ (unit 1 0x0031 7 0 7 0 0).X2.toNat ≤ (unit 1 0x0031 7 0 7 0 0).X0.toNat) ∧
    ((unit 1 0x0004 7 0 7 0 0).X2.toNat % 2 ^ 64 ≠ 0 ∧
      (unit 1 0x0004 7 0 7 0 0).X2.toNat % 2 ^ 64 ≤ (unit 1 0x0004 7 0 7 0 0).X0.toNat % 2 ^ 64) ∧
    ((unit 1 0x0031 6 0 7 0 0).X2.toNat ≠ 0 ∧ ¬ (unit 1 0x0031 6 0 7 0 0).X2.toNat ≤ (unit 1 0x0031 6 0 7 0 0).X0.toNat) ∧
    (decode 128 0x0000#16 = .error .unassignedOpcode ∧ (about 1 0 0 0 0 0 0).fault = .none) := by decide

theorem witness_MontgomeryCommandsNeedAContext :
    readsContext .mreduce = true ∧ (Mctx.reset 128).valid = false := by decide

/-- A unit whose context is valid and sound, and its next state. -/
theorem witness_StepKeepsContextInvariant :
    (about 1 0x0074 5 0 0 0 97).Inv ∧ (about 1 0x0074 5 0 0 0 97).mctx.valid = true ∧
    ∃ t, step (about 1 0x0074 5 0 0 0 97) = .next t :=
  ⟨context97_holds, rfl, ⟨_, rfl⟩⟩

/-- A step that leaves the context, a reset, and a MINIT. -/
theorem witness_OnlyMinitWritesContext :
    (∃ t, step (about 1 0x0010 2 3 0 0 97) = .next t) ∧
    (∃ t, step { unit 1 0 0 0 0 0 97 with stream := [.reset] } = .next t) ∧
    ((about 1 0x0070 97 0 0 0 0).stream = [.command (command 1 0x0070 97 0 0 0)] ∧
      ∃ t, step (about 1 0x0070 97 0 0 0 0) = .next t ∧ t.mctx.valid = true) :=
  ⟨⟨_, rfl⟩, ⟨_, rfl⟩, rfl, ⟨_, rfl, rfl⟩⟩

/-- `d = 0` (its upper bits set), `nh = d`, `nh = d - 1`. -/
theorem witness_WordDivide :
    (unit 1 0x0004 0 1 (2 ^ 64) 0 0).X2.toNat % 2 ^ 64 = 0 ∧
    ((unit 1 0x0004 7 0 7 0 0).X2.toNat % 2 ^ 64 ≠ 0 ∧
      (unit 1 0x0004 7 0 7 0 0).X2.toNat % 2 ^ 64 ≤ (unit 1 0x0004 7 0 7 0 0).X0.toNat % 2 ^ 64) ∧
    (unit 1 0x0004 6 0 7 0 0).X0.toNat % 2 ^ 64 < (unit 1 0x0004 6 0 7 0 0).X2.toNat % 2 ^ 64 := by decide

/-- Zero, and the lowest and the highest top bit. -/
theorem witness_LeadingZeroCounts :
    (unit 1 0x0005 (2 ^ 64) 0 0 0 0).X0.toNat % 2 ^ 64 = 0 ∧
    (2 ^ 0 ≤ (unit 1 0x0005 1 0 0 0 0).X0.toNat % 2 ^ 64 ∧ (unit 1 0x0005 1 0 0 0 0).X0.toNat % 2 ^ 64 < 2 ^ (0 + 1)) ∧
    (2 ^ 63 ≤ (unit 1 0x0005 (2 ^ 63) 0 0 0 0).X0.toNat % 2 ^ 64 ∧
      (unit 1 0x0005 (2 ^ 63) 0 0 0 0).X0.toNat % 2 ^ 64 < 2 ^ (63 + 1)) ∧
    (unit 1 0x004C 0 0 0 0 0).X0.toNat = 0 ∧
    (2 ^ 0 ≤ (unit 1 0x004C 1 0 0 0 0).X0.toNat ∧ (unit 1 0x004C 1 0 0 0 0).X0.toNat < 2 ^ (0 + 1)) ∧
    (2 ^ 127 ≤ (unit 1 0x004C (2 ^ 127) 0 0 0 0).X0.toNat ∧
      (unit 1 0x004C (2 ^ 127) 0 0 0 0).X0.toNat < 2 ^ (127 + 1)) := by decide

theorem witness_WordPrimitivesAtWidth64 : (unit 0 0x0004 6 5 7 0 0).j = 0 := rfl

theorem witness_UnsignedDivision :
    (unit 1 0x0030 1 0 0 0 0).X1.toNat = 0 ∧ (unit 1 0x0030 5 7 0 0 0).X1.toNat ≠ 0 := by decide

theorem witness_SignedDivision :
    (unit 1 0x0130 5 0 0 0 0).X1.toInt = 0 ∧ (unit 1 0x0130 5 (2 ^ 128 - 2) 0 0 0).X1.toInt ≠ 0 := by decide

/-- The wrapping case and another. -/
theorem witness_SignedDivisionProperty :
    ((unit 1 0x0130 (2 ^ 127) (2 ^ 128 - 1) 0 0 0).X1.toInt ≠ 0 ∧
      (unit 1 0x0130 (2 ^ 127) (2 ^ 128 - 1) 0 0 0).X0.toInt = -2 ^ 127 ∧
      (unit 1 0x0130 (2 ^ 127) (2 ^ 128 - 1) 0 0 0).X1.toInt = -1) ∧
    ((unit 1 0x0130 (2 ^ 127) 1 0 0 0).X1.toInt ≠ 0 ∧ (unit 1 0x0130 (2 ^ 127) 1 0 0 0).X1.toInt ≠ -1) := by decide

theorem witness_WideDivision :
    (unit 1 0x0031 0 1 0 0 0).X2.toNat = 0 ∧
    ((unit 1 0x0031 7 0 7 0 0).X2.toNat ≠ 0 ∧ (unit 1 0x0031 7 0 7 0 0).X2.toNat ≤ (unit 1 0x0031 7 0 7 0 0).X0.toNat) ∧
    (unit 1 0x0031 6 0 7 0 0).X0.toNat < (unit 1 0x0031 6 0 7 0 0).X2.toNat := by decide

theorem witness_ReciprocalInTwoSlots :
    (unit 1 0x0032 0 0 0 0 0).X0.toNat = 0 ∧ (unit 1 0x0032 7 0 0 0 0).X0.toNat ≠ 0 := by decide

/-- A zero divisor, the divisor's own reciprocal (V78), and another value (V79). -/
theorem witness_DivisionByReciprocal :
    (unit 1 0x0033 100 0 0 0 0).X1.toNat = 0 ∧
    ((withReciprocal 100 7 7).X1.toNat ≠ 0 ∧
      (withReciprocal 100 7 7).X3 ++ (withReciprocal 100 7 7).X2 = Config.recipFn 128 (withReciprocal 100 7 7).X1) ∧
    ((withWrongReciprocal 100 7 7).X1.toNat ≠ 0 ∧
      (withWrongReciprocal 100 7 7).X3 ++ (withWrongReciprocal 100 7 7).X2 ≠
        Config.recipFn 128 (withWrongReciprocal 100 7 7).X1) :=
  ⟨by decide, ⟨by decide, halves_append _⟩, ⟨by decide, wrongHalves_ne (by decide) _⟩⟩

theorem witness_ArithmeticLawsByCommands : (7 : BitVec (width 1)) ≠ 0 := by decide

/-- Both words, and a divisor of each kind. -/
theorem witness_AlgorithmBitChangesNoResult :
    (0x0130#16 = 0x0030#16 ∨ 0x0130#16 = 0x0130#16) ∧ (unit 1 0 0 0 0 0 0).fault = .none ∧
    (7 : BitVec (width 1)).toNat ≠ 0 ∧ (0 : BitVec (width 1)).toNat = 0 := by decide

/-- `m = W`, and the next width code. -/
theorem witness_WidthConversion :
    sourceWidth 4 ≤ (unit 1 0x1054 0 0 0 0 0).W ∧ (unit 1 0x1454 0 0 0 0 0).W < sourceWidth 5 := by decide

theorem witness_Powers :
    (unit 1 0x0061 2 3 0 0 0).X2.toNat = 0 ∧ (unit 1 0x0061 4 13 497 0 0).X2.toNat ≠ 0 := by decide

theorem witness_ContextConstruction :
    (unit 1 0x0070 0 0 0 0 0).X0.toNat % 2 = 0 ∧ (unit 1 0x0070 97 0 0 0 0).X0.toNat % 2 = 1 := by decide

/-- No context; `Rinv = 61` for 97 (47_montgomery.md); `T` just below and at the bound `n * 2^W`, for both commands. -/
theorem witness_MontgomeryReduceAndMultiply :
    (unit 1 0x0071 0 0 0 0 0).mctx.valid = false ∧
    ((unit 1 0x0071 0 0 0 0 97).mctx.valid = true ∧ (unit 1 0x0071 0 0 0 0 97).mctx.n.toNat % 2 = 1 ∧
      IsRadixInverse 128 97 61) ∧
    (unit 1 0x0071 (2 ^ 128 - 1) 96 0 0 97).X1.toNat * 2 ^ 128 + (unit 1 0x0071 (2 ^ 128 - 1) 96 0 0 97).X0.toNat < 97 * 2 ^ 128 ∧
    97 * 2 ^ 128 ≤ (unit 1 0x0071 0 97 0 0 97).X1.toNat * 2 ^ 128 + (unit 1 0x0071 0 97 0 0 97).X0.toNat ∧
    (unit 1 0x0072 (2 ^ 128 - 1) 97 0 0 97).X0.toNat * (unit 1 0x0072 (2 ^ 128 - 1) 97 0 0 97).X1.toNat < 97 * 2 ^ 128 ∧
    97 * 2 ^ 128 ≤ (unit 1 0x0072 (2 ^ 127) 194 0 0 97).X0.toNat * (unit 1 0x0072 (2 ^ 127) 194 0 0 97).X1.toNat := by
  unfold IsRadixInverse
  decide +kernel

/-- A base just below and at the modulus. -/
theorem witness_MontgomeryPower :
    (unit 1 0x0073 0 0 0 0 0).mctx.valid = false ∧
    ((unit 1 0x0073 96 2 0 0 97).mctx.valid = true ∧ (unit 1 0x0073 96 2 0 0 97).mctx.n.toNat % 2 = 1 ∧
      IsRadixInverse 128 97 61) ∧
    (unit 1 0x0073 96 2 0 0 97).X0.toNat < (unit 1 0x0073 96 2 0 0 97).mctx.n.toNat ∧
    (unit 1 0x0073 97 2 0 0 97).mctx.n.toNat ≤ (unit 1 0x0073 97 2 0 0 97).X0.toNat := by
  unfold IsRadixInverse
  decide +kernel

theorem witness_MontgomeryTransforms :
    (unit 1 0x0074 5 0 0 0 0).mctx.valid = false ∧ (unit 1 0x0074 5 0 0 0 97).mctx.valid = true ∧
    (unit 1 0x0074 5 0 0 0 97).mctx.n.toNat % 2 = 1 ∧ IsRadixInverse 128 97 61 := by
  unfold IsRadixInverse
  decide +kernel

theorem witness_MontgomeryRoundTrip :
    (97 : BitVec (width 1)).toNat % 2 = 1 ∧ (5 : BitVec (width 1)).toNat < (97 : BitVec (width 1)).toNat ∧
    (96 : BitVec (width 1)).toNat < (97 : BitVec (width 1)).toNat := by decide

theorem witness_StoredInverseAndOneGiveTheResults :
    (unit 1 0x0071 96 96 0 0 97).Inv ∧ (unit 1 0x0071 96 96 0 0 97).mctx.valid = true ∧
    96 * 2 ^ 128 + 96 < (unit 1 0x0071 96 96 0 0 97).mctx.n.toNat * 2 ^ 128 ∧
    (unit 1 0x0073 96 96 0 0 97).X0.toNat < (unit 1 0x0073 96 96 0 0 97).mctx.n.toNat :=
  ⟨context97_holds, rfl, by decide +kernel, by decide +kernel⟩

/-- CLZ reads `X[0]` alone. -/
theorem witness_IgnoredSlotsChangeNothing :
    (command 1 0x004C 5 6 7 8).word = (unit 1 0x004C 5 0 0 0 0).cmd.word ∧
    (∀ x ∈ reads .clz, (command 1 0x004C 5 6 7 8).slot x = (unit 1 0x004C 5 0 0 0 0).cmd.slot x) ∧
    (command 1 0x004C 5 6 7 8).x1.toNat ≠ (unit 1 0x004C 5 0 0 0 0).X1.toNat := by
  refine ⟨rfl, fun x hx => ?_, by decide⟩
  simp only [reads, List.mem_cons, List.not_mem_nil, or_false] at hx
  subst hx
  rfl

/-- ADD reads no context; MTO with the same context. -/
theorem witness_ResultsDependOnCommandAndContextOnly :
    readsContext .add = false ∧ readsContext .mto = true := by decide

theorem witness_StepForgetsTheLastCommand : (about 1 0x0010 2 3 0 0 0).stream ≠ [] := by decide

/-- Two agents with one pure command each, and both interleavings. -/
theorem witness_InterleavingsGiveTheSameResponses :
    let a := command 1 0x0010 2 3 0 0
    let b := command 1 0x0042 2 3 0 0
    (∀ own ∈ [[a], [b]], ∀ c ∈ own, PureCommand 1 c) ∧
    Interleaving [[a], [b]] [a, b] ∧ Interleaving [[a], [b]] [b, a] := by
  intro a b
  refine ⟨?_, ?_, ?_⟩
  · intro own hown c hc
    simp only [List.mem_cons, List.not_mem_nil, or_false] at hown
    rcases hown with rfl | rfl <;> simp only [List.mem_cons, List.not_mem_nil, or_false] at hc <;> subst hc
    · exact ⟨.add, _, _, _, by decide, rfl, by decide, rfl⟩
    · exact ⟨.bitXor, _, _, _, by decide, rfl, by decide, rfl⟩
  · exact .accept (before := []) (own := []) (after := [[b]])
      (.accept (before := [[]]) (own := []) (after := []) (.done (by simp)))
  · exact .accept (before := [[a]]) (own := []) (after := [])
      (.accept (before := []) (own := []) (after := [[]]) (.done (by simp)))

theorem witness_MultiplierTreeIsExact : (unit 1 0x0020 2 3 0 0 0).j = 0 + 1 := rfl

theorem witness_KnuthDivisionIsExact :
    (unit 1 0x0031 6 (2 ^ 128 - 1) 7 0 0).X0.toNat < (unit 1 0x0031 6 (2 ^ 128 - 1) 7 0 0).X2.toNat := by decide

/-- Candidates one too high, exact, and one too low for 100 / 7. -/
theorem witness_SingleCorrectionIsExact :
    (unit 1 0x0030 100 7 0 0 0).X1.toNat ≠ 0 ∧
    (∀ candidate ∈ [15, 14, 13],
      candidate ≤ (unit 1 0x0030 100 7 0 0 0).X0.toNat / (unit 1 0x0030 100 7 0 0 0).X1.toNat + 1 ∧
      (unit 1 0x0030 100 7 0 0 0).X0.toNat / (unit 1 0x0030 100 7 0 0 0).X1.toNat ≤ candidate + 1) := by decide +kernel

/-- The first and the last byte and word of a 128-bit value, and sixteen bytes. -/
theorem witness_MemoryImage :
    0 < width 1 / 8 ∧ 15 < width 1 / 8 ∧ 0 < width 1 / 64 ∧ 1 < width 1 / 64 ∧
    (List.replicate 16 (0xA5#8 : Byte)).length = width 1 / 8 := by decide

/-- A mnemonic and suffix that name an instruction; two pairs that name none: no such mnemonic, no suffix on ADD. -/
theorem witness_AssemblerNamesInstructions :
    (mnemonicOf (.exts 2) = "EXTS" ∧ suffixOf (.exts 2) = some (.width 32)) ∧
    (∀ k, ¬ (mnemonicOf k = "NOP" ∧ suffixOf k = none)) ∧ (∀ k, ¬ (mnemonicOf k = "ADD" ∧ suffixOf k = some .k)) := by
  refine ⟨by decide, fun k => ?_, fun k => ?_⟩ <;> cases k <;> simp [mnemonicOf, suffixOf]

/-- R91's suffixes and values, written as the rule writes them: `SAR x0=-7, x1=1` and `EXTS.32 x0=0x80000000`. -/
theorem test_assemble :
    assemble 128 ⟨"SAR", none, some (.neg 7), some (.nat 1), none, none⟩ =
      some ⟨0x0149#16, 0xfffffffffffffffffffffffffffffff9, 1, 0, 0⟩ ∧
    assemble 128 ⟨"EXTS", some (.width 32), some (.nat 0x80000000), none, none, none⟩ =
      some ⟨0x0954#16, 0x80000000, 0, 0, 0⟩ := by decide +kernel

theorem witness_PseudoCommandsReadBack :
    (unit 1 0 0 0 0 0 0).fault = .none ∧ sourceWidth 4 ≤ (unit 1 0 0 0 0 0 0).W ∧ (7 : BitVec (width 1)) ≠ 0 := by decide

end Sys2Proof.Tests
end

/-! ## Scope: what one step takes, and what a command's effect depends on (00_scope.md R7, R11) -/

namespace Sys2Proof.Machine

/-! ### One step (70_reset_and_hazards.md R350), an equation per case and its inversion -/

section Step

variable {s t : State} {c : Command s.W} {rest : List (HostEvent s.W)}

theorem step_wait (hs : s.stream = []) : step s = .next s := by simp [step, hs]

theorem step_reset (hs : s.stream = .reset :: rest) : step s = .next (s.applyReset rest) := by simp [step, hs]

theorem step_legal {i : Instr} (hs : s.stream = .command c :: rest) (hf : s.fault = .none)
    (hd : decode s.W c.word = .ok i) : step s = exec i (s.accept c rest) := by simp [step, hs, hf, hd]

theorem step_illegal {err : DecodeError} (hs : s.stream = .command c :: rest) (hf : s.fault = .none)
    (hd : decode s.W c.word = .error err) :
    step s = .next ((s.accept c rest).withFault (.illegalCommand c.word)) := by
  simp [step, hs, hf, hd, State.raise]

theorem step_latched (hs : s.stream = .command c :: rest) (hf : s.fault ≠ .none) :
    step s = .fault (.latched s.j s.observation) := by simp [step, hs, hf]

/-- Everything a step that answers a next state can have done. -/
theorem step_next_cases (h : step s = .next t) :
    (s.stream = [] ∧ t = s) ∨
    (∃ rest, s.stream = .reset :: rest ∧ t = s.applyReset rest) ∨
    ∃ c rest, s.stream = .command c :: rest ∧ s.fault = .none ∧
      ((∃ i, decode s.W c.word = .ok i ∧ exec i (s.accept c rest) = .next t) ∨
        ∃ err, decode s.W c.word = .error err ∧ t = (s.accept c rest).withFault (.illegalCommand c.word)) := by
  rcases hs : s.stream with _ | ⟨_ | _, rest⟩
  case nil =>
    rw [step_wait hs] at h
    cases h
    exact .inl ⟨rfl, rfl⟩
  case cons.reset =>
    rw [step_reset hs] at h
    cases h
    exact .inr (.inl ⟨rest, rfl, rfl⟩)
  case cons.command c =>
    by_cases hf : s.fault = .none
    · refine .inr (.inr ⟨c, rest, rfl, hf, ?_⟩)
      cases hd : decode s.W c.word with
      | ok i => exact .inl ⟨i, rfl, by rw [← step_legal hs hf hd, h]⟩
      | error err =>
        rw [step_illegal hs hf hd] at h
        cases h
        exact .inr ⟨err, rfl, rfl⟩
    · rw [step_latched hs hf] at h
      cases h

end Step

/-! ### The effect of a command -/

/-- What a command does to the unit that runs it: it returns a response, may write `MCTX` whole and takes draws
(10_state.md R33, R37), or it sets the fault latch (60_exceptions.md R303). -/
inductive Effect (W : Nat) where
  | answer (r : Response W) (written : Option (Mctx W)) (draws : Nat)
  | fault (f : FaultLatch W)

/-- The unit after a command with this effect. -/
def State.after (s : State) : Effect s.W → State
  | .answer r written k =>
    { s with responses := r :: s.responses, mctx := written.getD s.mctx, draws := s.draws + k }
  | .fault f => { s with fault := f }

/-- The effects a command can have: an answer writes `MCTX` exactly at MINIT (10_state.md R37) and takes at most two draws
(60_exceptions.md R314); a fault is not `NONE`. -/
def Effect.Fits {W : Nat} (i : Instr) : Effect W → Prop
  | .answer _ written k => (written.isSome = true ↔ i = .minit) ∧ k ≤ 2
  | .fault f => f ≠ .none

/-- The context an answer leaves: what it writes, which at MINIT does not depend on what was there, or what was there. -/
theorem Effect.Fits.getD_written {W : Nat} {i : Instr} {r : Response W} {written : Option (Mctx W)} {k : Nat}
    (h : (Effect.answer r written k).Fits i) (m m₀ : Mctx W) :
    written.getD m = if i = .minit then written.getD m₀ else m := by
  obtain ⟨hminit, -⟩ := h
  cases written with
  | none => exact (if_neg fun hi => nomatch hminit.2 hi).symm
  | some m' => exact (if_pos (hminit.1 rfl)).symm

/-- An effect reaches neither the width, the command input nor the host's stream. -/
theorem State.after_frame (s : State) (e : Effect s.W) :
    ∃ rs m f d, s.after e = { s with responses := rs, mctx := m, fault := f, draws := d } := by
  cases e with
  | answer r written k => exact ⟨_, _, _, _, rfl⟩
  | fault f => exact ⟨_, _, _, _, rfl⟩

/-! ### Two units that show the same command -/

/-- What surrounds a command in the unit that runs it: what the host has still to do, what earlier commands left. -/
structure Surroundings (W : Nat) where
  stream : List (HostEvent W)
  responses : List (Response W)
  fault : FaultLatch W
  mctx : Mctx W

/-- The unit of the same width, with the same command presented and the same draws to come, in other surroundings. -/
def State.within (s : State) (u : Surroundings s.W) : State :=
  { s with stream := u.stream, responses := u.responses, fault := u.fault, mctx := u.mctx }

/-- What the unit itself surrounds its command with. -/
def State.surroundings (s : State) : Surroundings s.W := ⟨s.stream, s.responses, s.fault, s.mctx⟩

/-- `a` and `b`, the results of the command `i` in `s` and in `s.within u`, are one effect on the two units. -/
def SameEffect (i : Instr) (s : State) (u : Surroundings s.W) (a b : Result) : Prop :=
  ∃ e : Effect s.W, e.Fits i ∧ a = .next (s.after e) ∧ b = .next ((s.within u).after e)

namespace SameEffect

variable {i : Instr} {s : State} {u : Surroundings s.W} {a b a' b' : Result}

/-- Ends with a fault that records the same in both units. -/
theorem raise {f : FaultLatch s.W} (hf : f ≠ .none) : SameEffect i s u (s.raise f) ((s.within u).raise f) :=
  ⟨.fault f, hf, rfl, rfl⟩

/-- Ends with the same response in both units. -/
theorem respond (hi : i ≠ .minit) (y0 y1 : BitVec s.W) (f : Bool) :
    SameEffect i s u (s.respond y0 y1 f) ((s.within u).respond y0 y1 f) :=
  ⟨.answer ⟨y0, y1, f⟩ none 0, by simp [Effect.Fits, hi], rfl, rfl⟩

/-- A draw depends on the number of draws taken alone. -/
theorem respondDraw (hi : i ≠ .minit) : SameEffect i s u s.respondDraw (s.within u).respondDraw :=
  ⟨.answer ⟨s.drawn 0, 0, false⟩ none 1, by simp [Effect.Fits, hi], rfl, rfl⟩

theorem respondDraws (hi : i ≠ .minit) : SameEffect i s u s.respondDraws (s.within u).respondDraws :=
  ⟨.answer ⟨s.drawn 0, s.drawn 1, false⟩ none 2, by simp [Effect.Fits, hi], rfl, rfl⟩

theorem respondContext (m : Mctx s.W) :
    SameEffect .minit s u (s.respondContext m) ((s.within u).respondContext m) :=
  ⟨.answer ⟨m.one, m.ninv, false⟩ (some m) 0, by simp [Effect.Fits], rfl, rfl⟩

theorem ite {p : Prop} [Decidable p] (h : SameEffect i s u a b) (h' : SameEffect i s u a' b') :
    SameEffect i s u (if p then a else a') (if p then b else b') := by
  split
  · exact h
  · exact h'

theorem requireNonzero {N : Nat} (d : BitVec N) (slot : Slot) (h : SameEffect i s u a b) :
    SameEffect i s u (s.requireNonzero d slot a) ((s.within u).requireNonzero d slot b) :=
  ite (raise nofun) h

theorem requireBelow {N : Nat} (nh d : BitVec N) (h : SameEffect i s u a b) :
    SameEffect i s u (s.requireBelow nh d a) ((s.within u).requireBelow nh d b) :=
  ite (raise nofun) h

/-- The check for a context, in two units that hold the same one. -/
theorem requireContext (hu : u.mctx = s.mctx) (h : SameEffect i s u a b) :
    SameEffect i s u (s.requireContext a) ((s.within u).requireContext b) := by
  have hw : (s.within u).mctx = s.mctx := hu
  rw [State.requireContext, State.requireContext, hw]
  exact ite h (raise nofun)

end SameEffect

theorem execMinit_sameEffect (s : State) (u : Surroundings s.W) :
    SameEffect .minit s u (exec .minit s) (exec .minit (s.within u)) :=
  .ite (.raise nofun) (.respondContext _)

/-- The commands that read `MCTX`, in two units that hold the same context (47_montgomery.md R271). -/
theorem exec_sameEffect_of_readsContext {i : Instr} {s : State} {u : Surroundings s.W} (hr : readsContext i = true)
    (hu : u.mctx = s.mctx) : SameEffect i s u (exec i s) (exec i (s.within u)) := by
  have hi : i ≠ .minit := by rintro rfl; cases hr
  obtain ⟨es, rs, fl, m⟩ := u
  subst hu
  cases i
  case mreduce | mmul | mpow => exact .requireContext rfl (.ite (.respondDraw hi) (.respond hi _ _ _))
  case mto | mfrom => exact .requireContext rfl (.respond hi _ _ _)
  all_goals cases hr

/-- The commands that neither read nor write `MCTX`, in any two units. -/
theorem exec_sameEffect_of_not_readsContext {i : Instr} (s : State) (u : Surroundings s.W)
    (hr : readsContext i = false) (hi : i ≠ .minit) : SameEffect i s u (exec i s) (exec i (s.within u)) := by
  cases i
  case divremu | divrems | recip | powm => exact .requireNonzero _ _ (.respond hi _ _ _)
  case wdiv | divw => exact .requireNonzero _ _ (.requireBelow _ _ (.respond hi _ _ _))
  case divr => exact .requireNonzero _ _ (.ite (.respond hi _ _ _) (.respondDraws hi))
  case minit => exact absurd rfl hi
  case mreduce | mmul | mpow | mto | mfrom => cases hr
  all_goals exact .respond hi _ _ _

/-- A command has one effect in all units that show it with the same draws to come and, where it reads `MCTX`, with the same
context (00_scope.md R11). -/
theorem exec_sameEffect (i : Instr) (s : State) (u : Surroundings s.W)
    (hu : readsContext i = true → u.mctx = s.mctx) :
    SameEffect i s u (exec i s) (exec i (s.within u)) := by
  by_cases hi : i = .minit
  · subst hi
    exact execMinit_sameEffect s u
  · cases hr : readsContext i with
    | true => exact exec_sameEffect_of_readsContext hr (hu hr)
    | false => exact exec_sameEffect_of_not_readsContext s u hr hi

/-- Every command has an effect on the unit that runs it: none stops the run, and each answers or faults. -/
theorem exec_eq_after (i : Instr) (s : State) : ∃ e : Effect s.W, e.Fits i ∧ exec i s = .next (s.after e) := by
  obtain ⟨e, he, hs, -⟩ := exec_sameEffect i s s.surroundings fun _ => rfl
  exact ⟨e, he, hs⟩

/-! ### The statements -/

/-- Settles O44: the effect is the same in both units, and it writes `MCTX` exactly where the command is MINIT. -/
theorem resultsDependOnCommandAndContextOnly : Obligations.ResultsDependOnCommandAndContextOnly := by
  intro i s es rs fl m hm
  obtain ⟨e, he, hs, ht⟩ := exec_sameEffect i s ⟨es, rs, fl, m⟩ hm
  cases e with
  | fault f => exact .inr ⟨f, hs, ht⟩
  | answer r written k =>
    refine .inl ⟨r, written.getD s.mctx, k, hs, ht.trans ?_⟩
    rw [← he.getD_written m s.mctx]
    rfl

/-- Settles O9, by the cases of a step: a reset, a command's effect and an illegal word each leave the width and take the
event presented. -/
theorem stepTakesTheFirstEvent : Obligations.StepTakesTheFirstEvent := by
  intro s t h
  obtain hwait | ⟨rest, hs, rfl⟩ | ⟨c, rest, hs, -, ⟨i, -, hi⟩ | ⟨err, -, rfl⟩⟩ := step_next_cases h
  · exact .inl hwait
  · exact .inr ⟨.reset, rest, _, _, _, _, _, hs, rfl⟩
  · obtain ⟨e, -, he⟩ := exec_eq_after i (s.accept c rest)
    obtain ⟨rs, m, f, d, hafter⟩ := (s.accept c rest).after_frame e
    have ht : t = (s.accept c rest).after e := Host.Outcome.next.inj (hi.symm.trans he)
    exact .inr ⟨.command c, rest, c, rs, m, f, d, hs, ht.trans hafter⟩
  · exact .inr ⟨.command c, rest, _, _, _, _, _, hs, rfl⟩

end Sys2Proof.Machine

/-! ## State: the step's statements, what is written and what is read (10_state.md) -/

namespace Sys2Proof.Machine

/-! ### The word of a decoded command (30_encoding.md R81 to R88) -/

/-- What decoding checked of a word it accepts, and the row it found. -/
theorem decode_ok {W : Nat} {cmd : CommandWord} {i : Instr} (h : decode W cmd = .ok i) :
    reservedOf cmd = 0 ∧ (opcOf cmd ≠ 0x30 → algOf cmd = false) ∧
    (opcOf cmd = 0x54 → sourceWidth (widthCodeOf cmd) ≤ W) ∧ (opcOf cmd ≠ 0x54 → widthCodeOf cmd = 0) ∧
    opcodeRow (opcOf cmd) (signOf cmd) (.ofBit (algOf cmd)) (widthCodeOf cmd) = some i := by
  unfold decode at h
  split_ifs at h with hrsv hopc hsign halg hwide hcode
  cases hrow : opcodeRow (opcOf cmd) (signOf cmd) (.ofBit (algOf cmd)) (widthCodeOf cmd) with
  | none => rw [hrow] at h; cases h
  | some k =>
    rw [hrow] at h
    cases h
    refine ⟨not_not.1 hrsv, fun ho => ?_, fun ho => ?_, fun ho => ?_, rfl⟩
    · exact Bool.eq_false_iff.2 fun ha => halg ⟨ha, ho⟩
    · exact not_lt.1 fun hw => hwide ⟨ho, hw⟩
    · exact not_not.1 fun hm => hcode ⟨ho, hm⟩

/-- The word of a row's instruction has the row's `OPC` and `S`, and its free field where the row has one. -/
theorem encode_of_opcodeRow {opc : BitVec 8} {s : Bool} {alg : Alg} {m : BitVec 4} {i : Instr}
    (h : opcodeRow opc s alg m = some i) :
    encode i = commandWord opc s (if opc = 0x30 then alg.bit else false) (if opc = 0x54 then m else 0) := by
  unfold opcodeRow at h
  split at h
  case h_41 => cases h
  all_goals
    rename_i hopc
    cases h
    obtain ⟨-, rfl⟩ := BitVec.toNat_eq_nat.1 hopc
    rfl

/-- A single bit as a field of width 1. -/
theorem ofBool_getLsbD {N : Nat} (v : BitVec N) (i : Nat) : BitVec.ofBool (v.getLsbD i) = v.extractLsb' i 1 := by
  ext k hk
  obtain rfl : k = 0 := by omega
  simp

/-- A word with `RSV = 0` is made of its other four fields (30_encoding.md R81). -/
theorem commandWord_fields {cmd : CommandWord} (h : reservedOf cmd = 0) :
    commandWord (opcOf cmd) (signOf cmd) (algOf cmd) (widthCodeOf cmd) = cmd := by
  have hrsv : 0#2 = cmd.extractLsb' 14 2 := h.symm
  rw [commandWord, hrsv, algOf, signOf, ofBool_getLsbD, ofBool_getLsbD, opcOf, widthCodeOf]
  simp (disch := decide) only [BitVec.extractLsb'_append_extractLsb'_eq_extractLsb', BitVec.extractLsb'_eq_self]

/-- A word the decoder accepts is the word of the command it decodes to. -/
theorem encode_of_decode {W : Nat} {cmd : CommandWord} {i : Instr} (h : decode W cmd = .ok i) : encode i = cmd := by
  obtain ⟨hrsv, halg, -, hcode, hrow⟩ := decode_ok h
  have hA : (if opcOf cmd = 0x30 then (Alg.ofBit (algOf cmd)).bit else false) = algOf cmd := by
    split_ifs with ho
    · cases algOf cmd <;> rfl
    · exact (halg ho).symm
  have hM : (if opcOf cmd = 0x54 then widthCodeOf cmd else 0) = widthCodeOf cmd := by
    split_ifs with ho
    · rfl
    · exact (hcode ho).symm
  rw [encode_of_opcodeRow hrow, hA, hM, commandWord_fields hrsv]

/-! ### What a step writes to the context (10_state.md R36, R37) -/

/-- The unit after a MINIT of an odd modulus: its context is loaded, two of its fields are returned. -/
def State.loaded (s : State) : State :=
  { s with mctx := contextOf s.X0, responses := ⟨(contextOf s.X0).one, (contextOf s.X0).ninv, false⟩ :: s.responses }

/-- MINIT loads the context of an odd modulus whole (47_montgomery.md R272). -/
theorem exec_minit_odd {s : State} (h : s.X0.toNat % 2 = 1) : exec .minit s = .next s.loaded :=
  if_neg (by simp [lowBit_eq, h])

/-- MINIT of an even modulus faults and writes no context (47_montgomery.md R272). -/
theorem exec_minit_even {s : State} (h : s.X0.toNat % 2 = 0) :
    exec .minit s = .next (s.withFault (.evenModulus s.cmd.word s.X0)) :=
  if_pos (by simp [lowBit_eq, h])

/-- The context MINIT loads meets the content column of 10_state.md R36. -/
theorem contextOf_holds {W : Nat} {n : BitVec W} (hn : n.toNat % 2 = 1) : (contextOf n).Holds := by
  intro _
  have hlt := n.isLt
  have hW : 0 < W := by
    rcases Nat.eq_zero_or_pos W with rfl | h
    · omega
    · exact h
  have hone : 2 ^ W % n.toNat < 2 ^ W := (Nat.mod_lt _ (by omega)).trans hlt
  refine ⟨hn, ?_, rfl, ?_⟩
  · simp only [contextOf, BitVec.toNat_ofNat, Nat.mod_eq_of_lt (inversePow2_lt W n.toNat)]
    exact inversePow2_mul hW hn
  · simp only [contextOf, BitVec.toNat_ofNat, Nat.mod_eq_of_lt hone]

/-- A context that is not valid, as after reset, need hold nothing. -/
theorem Mctx.reset_holds (W : Nat) : (Mctx.reset W).Holds := nofun

/-- A command leaves `MCTX` as it was, or is a MINIT of an odd modulus. -/
theorem exec_next_mctx {i : Instr} {s t : State} (h : exec i s = .next t) :
    (∃ rs f d, t = { s with responses := rs, fault := f, draws := d }) ∨
    (i = .minit ∧ s.X0.toNat % 2 = 1 ∧ t = s.loaded) := by
  by_cases hi : i = .minit
  · subst hi
    rcases Nat.mod_two_eq_zero_or_one s.X0.toNat with hx | hx
    · rw [exec_minit_even hx] at h
      cases h
      exact .inl ⟨_, _, _, rfl⟩
    · rw [exec_minit_odd hx] at h
      cases h
      exact .inr ⟨rfl, hx, rfl⟩
  · obtain ⟨e, he, hs⟩ := exec_eq_after i s
    obtain rfl : t = s.after e := Host.Outcome.next.inj (h.symm.trans hs)
    cases e with
    | fault f => exact .inl ⟨_, _, _, rfl⟩
    | answer r written k =>
      have hm : written.getD s.mctx = s.mctx := (he.getD_written s.mctx s.mctx).trans (if_neg hi)
      exact .inl ⟨r :: s.responses, s.fault, s.draws + k, by rw [State.after, hm]⟩

/-- A step leaves `MCTX` as it was, or takes a reset or the word of MINIT with an odd modulus. -/
theorem step_next_mctx {s t : State} (h : step s = .next t) :
    (∃ c es rs f d, t = { s with cmd := c, stream := es, responses := rs, fault := f, draws := d }) ∨
    (∃ rest, s.stream = .reset :: rest ∧ t = s.applyReset rest) ∨
    ∃ c rest, s.stream = .command c :: rest ∧ c.word = encode .minit ∧ c.x0.toNat % 2 = 1 ∧
      t = (s.accept c rest).loaded := by
  obtain ⟨-, rfl⟩ | hreset | ⟨c, rest, hs, -, ⟨i, hd, hi⟩ | ⟨err, -, rfl⟩⟩ := step_next_cases h
  · exact .inl ⟨_, _, _, _, _, rfl⟩
  · exact .inr (.inl hreset)
  · obtain ⟨rs, f, d, rfl⟩ | ⟨rfl, hx, rfl⟩ := exec_next_mctx hi
    · exact .inl ⟨_, _, _, _, _, rfl⟩
    · exact .inr (.inr ⟨c, rest, hs, (encode_of_decode hd).symm, hx, rfl⟩)
  · exact .inl ⟨_, _, _, _, _, rfl⟩

/-! ### What a command reads of the slots (10_state.md R30, 30_encoding.md R86) -/

/-- The unit with this command presented in place of the one it shows. -/
def State.showing (s : State) (c : Command s.W) : State := { s with cmd := c }

/-- `a` and `b`, results in `s` and in `s.showing c`, are one effect on the two units. -/
def SameEffectShowing (s : State) (c : Command s.W) (a b : Result) : Prop :=
  ∃ e : Effect s.W, a = .next (s.after e) ∧ b = .next ((s.showing c).after e)

theorem SameEffectShowing.ite {s : State} {c : Command s.W} {a b a' b' : Result} {p : Prop} [Decidable p]
    (h : SameEffectShowing s c a b) (h' : SameEffectShowing s c a' b') :
    SameEffectShowing s c (if p then a else a') (if p then b else b') := by
  split
  · exact h
  · exact h'

/-- Two commands with the same word that agree on the slots the instruction reads have one effect. -/
theorem exec_sameEffectShowing (i : Instr) (s : State) (c : Command s.W) (hw : c.word = s.cmd.word)
    (hr : ∀ x ∈ reads i, c.slot x = s.cmd.slot x) :
    SameEffectShowing s c (exec i s) (exec i (s.showing c)) := by
  obtain ⟨j, ⟨w, x0, x1, x2, x3⟩, es, rs, m, f, d⟩ := s
  obtain ⟨w', y0, y1, y2, y3⟩ := c
  cases i
  -- the slots read become the same in both commands, the ignored ones stay apart
  all_goals
    simp only [reads, List.forall_mem_cons, Command.slot] at hw hr
    casesm* _ ∧ _
    subst_vars
  case divremu | divrems | recip | powm => exact .ite ⟨.fault _, rfl, rfl⟩ ⟨.answer _ none 0, rfl, rfl⟩
  case wdiv | divw =>
    exact .ite ⟨.fault _, rfl, rfl⟩ (.ite ⟨.fault _, rfl, rfl⟩ ⟨.answer _ none 0, rfl, rfl⟩)
  case divr =>
    exact .ite ⟨.fault _, rfl, rfl⟩ (.ite ⟨.answer _ none 0, rfl, rfl⟩ ⟨.answer _ none 2, rfl, rfl⟩)
  case minit => exact .ite ⟨.fault _, rfl, rfl⟩ ⟨.answer _ (some _) 0, rfl, rfl⟩
  case mreduce | mmul | mpow =>
    exact .ite (.ite ⟨.answer _ none 1, rfl, rfl⟩ ⟨.answer _ none 0, rfl, rfl⟩) ⟨.fault _, rfl, rfl⟩
  case mto | mfrom => exact .ite ⟨.answer _ none 0, rfl, rfl⟩ ⟨.fault _, rfl, rfl⟩
  all_goals exact ⟨.answer _ none 0, rfl, rfl⟩

/-! ### The statements -/

/-- Settles O14: an unchanged context stays sound, reset leaves none, and MINIT loads a sound one. -/
theorem stepKeepsContextInvariant : Obligations.StepKeepsContextInvariant := by
  intro s t hinv h
  obtain ⟨c, es, rs, f, d, rfl⟩ | ⟨rest, -, rfl⟩ | ⟨c, rest, -, -, hx, rfl⟩ := step_next_mctx h
  · exact hinv
  · exact Mctx.reset_holds s.W
  · exact contextOf_holds hx

/-- Settles O11, by the cases of a command's effect. -/
theorem everyCommandFaultsOrResponds : Obligations.EveryCommandFaultsOrResponds := by
  intro i s
  obtain ⟨e, he, hs⟩ := exec_eq_after i s
  cases e with
  | fault f => exact .inl ⟨f, he, hs⟩
  | answer r written k =>
    have hm : i ≠ .minit → written.getD s.mctx = s.mctx := fun hi =>
      (he.getD_written s.mctx s.mctx).trans (if_neg hi)
    obtain ⟨-, hk⟩ := he
    exact .inr ⟨r, written.getD s.mctx, k, hs, hm, hk⟩

/-- Settles O15: the context a MINIT loads is sound, which says what its fields are. -/
theorem onlyMinitWritesContext : Obligations.OnlyMinitWritesContext := by
  intro s t h
  obtain hkeep | ⟨rest, hs, -⟩ | ⟨c, rest, hs, hw, hx, rfl⟩ := step_next_mctx h
  · exact .inl hkeep
  · exact .inr (.inl ⟨rest, hs⟩)
  · obtain ⟨-, hninv, hrecip, hone⟩ := contextOf_holds hx rfl
    exact .inr (.inr ⟨c, rest, contextOf c.x0, _, hs, hw, hx, rfl, rfl, hninv, hrecip, hone, rfl⟩)

/-- Settles O43: the two commands have one effect, an answer or a fault. -/
theorem ignoredSlotsChangeNothing : Obligations.IgnoredSlotsChangeNothing := by
  intro i s c hw hr
  obtain ⟨e, hs, ht⟩ := exec_sameEffectShowing i s c hw hr
  cases e with
  | answer r written k => exact .inl ⟨r, written.getD s.mctx, k, hs, ht⟩
  | fault f => exact .inr ⟨f, hs, ht⟩

/-- Settles O5: it is the equation of a step on a legal word. -/
theorem stepRunsDecodedCommand : Obligations.StepRunsDecodedCommand :=
  fun _ _ _ _ hs hf hd => step_legal hs hf hd

/-- Settles O8: every value is the reset state's own, and a context that is not valid is sound. -/
theorem resetStateValues : Obligations.ResetStateValues :=
  ⟨fun j => ⟨rfl, rfl, rfl, rfl, rfl, Mctx.reset_holds (width j)⟩, Config.level, rfl⟩

/-- Settles O45: whatever event comes first, the step presents its own command or resets the command input. -/
theorem stepForgetsTheLastCommand : Obligations.StepForgetsTheLastCommand := by
  rintro ⟨j, cmd, stream, responses, mctx, fault, draws⟩ c hne
  rcases stream with _ | ⟨_ | _, rest⟩
  case nil => exact absurd rfl hne
  case cons.reset => rfl
  case cons.command => rfl

end Sys2Proof.Machine

/-! ## Memory: the image of a value, and agents that share a unit (20_memory.md R60, R62, R69) -/

namespace Sys2Proof.Machine

/-! ### The number a list of bytes stands for (20_memory.md R60) -/

/-- Bytes are digits in base 256, the least significant first. -/
theorem bytesToNat_eq_ofDigits (bs : List Byte) : bytesToNat bs = Nat.ofDigits 256 (bs.map BitVec.toNat) := by
  induction bs with
  | nil => rfl
  | cons b bs ih => rw [bytesToNat, ih, List.map_cons, Nat.ofDigits_cons]

theorem byte_digit_lt (bs : List Byte) : ∀ x ∈ bs.map BitVec.toNat, x < 256 :=
  List.forall_mem_map.2 fun b _ => b.isLt

theorem bytesToNat_lt (bs : List Byte) : bytesToNat bs < 256 ^ bs.length := by
  have h := Nat.ofDigits_lt_base_pow_length (by decide) (byte_digit_lt bs)
  rwa [← bytesToNat_eq_ofDigits, List.length_map] at h

theorem bytesToNat_append (bs cs : List Byte) :
    bytesToNat (bs ++ cs) = bytesToNat bs + 256 ^ bs.length * bytesToNat cs := by
  simp only [bytesToNat_eq_ofDigits, List.map_append, Nat.ofDigits_append, List.length_map]

/-- The bytes from offset `k` on are what is left above the lowest `k`. -/
theorem bytesToNat_drop (k : Nat) (bs : List Byte) : bytesToNat (bs.drop k) = bytesToNat bs / 256 ^ k := by
  rw [bytesToNat_eq_ofDigits, bytesToNat_eq_ofDigits, List.map_drop,
    Nat.ofDigits_div_pow_eq_ofDigits_drop k (by decide) _ (byte_digit_lt bs)]

theorem bytesToNat_take (k : Nat) (bs : List Byte) : bytesToNat (bs.take k) = bytesToNat bs % 256 ^ k := by
  rw [bytesToNat_eq_ofDigits, bytesToNat_eq_ofDigits, List.map_take,
    Nat.ofDigits_mod_pow_eq_ofDigits_take k (by decide) _ (byte_digit_lt bs)]

/-- Two lists of as many bytes that stand for one number are one list. -/
theorem bytes_eq_of_bytesToNat {bs cs : List Byte} (hlen : bs.length = cs.length)
    (h : bytesToNat bs = bytesToNat cs) : bs = cs := by
  rw [bytesToNat_eq_ofDigits, bytesToNat_eq_ofDigits] at h
  have hdigits := Nat.injOn_ofDigits (by decide) cs.length
    ⟨(List.length_map _).trans hlen, byte_digit_lt bs⟩ ⟨List.length_map _, byte_digit_lt cs⟩ h
  exact List.map_injective_iff.2 (fun _ _ => BitVec.eq_of_toNat_eq) hdigits

/-! ### The image of a value (20_memory.md R60, R62) -/

section Image

variable {N : Nat}

theorem pow_bytes (k : Nat) : 256 ^ k = 2 ^ (8 * k) := (pow_mul 2 8 k).symm

theorem pow_imageBytes (h8 : 8 ∣ N) : 256 ^ (N / 8) = 2 ^ N := by rw [pow_bytes, Nat.mul_div_cancel' h8]

theorem byteAt_eq (v : BitVec N) (i : Nat) : byteAt v i = BitVec.ofNat 8 (v.toNat / 2 ^ (8 * i)) := by
  rw [byteAt, BitVec.extractLsb', Nat.shiftRight_eq_div_pow]

theorem byteAt_toNat (v : BitVec N) (i : Nat) : (byteAt v i).toNat = v.toNat / 256 ^ i % 256 := by
  rw [byteAt_eq, BitVec.toNat_ofNat, ← pow_bytes]

theorem wordOf_toNat (v : BitVec N) (i : Nat) : (wordOf v i).toNat = v.toNat / 256 ^ (8 * i) % 256 ^ 8 := by
  rw [wordOf, BitVec.extractLsb'_toNat, Nat.shiftRight_eq_div_pow, pow_bytes, pow_bytes, ← mul_assoc]
  rfl

@[simp] theorem image_length (v : BitVec N) : (image v).length = N / 8 := by simp [image]

/-- The lowest `k` bytes of a value stand for its remainder. -/
theorem bytesToNat_map_byteAt (v : BitVec N) (k : Nat) :
    bytesToNat ((List.range k).map (byteAt v)) = v.toNat % 256 ^ k := by
  induction k with
  | zero => rw [pow_zero, Nat.mod_one]; rfl
  | succ k ih =>
    rw [List.range_succ, List.map_append, bytesToNat_append, ih, List.length_map, List.length_range, pow_succ,
      Nat.mod_mul, List.map_singleton, bytesToNat, bytesToNat, byteAt_toNat, mul_zero, add_zero]

/-- The image of a value of whole bytes stands for the value. -/
theorem bytesToNat_image (h8 : 8 ∣ N) (v : BitVec N) : bytesToNat (image v) = v.toNat := by
  rw [image, bytesToNat_map_byteAt, pow_imageBytes h8, Nat.mod_eq_of_lt v.isLt]

theorem image_getElem? (v : BitVec N) {i : Nat} (hi : i < N / 8) :
    (image v)[i]? = some (BitVec.ofNat 8 (v.toNat / 2 ^ (8 * i))) := by
  rw [image, List.getElem?_map, List.getElem?_range hi, Option.map_some, byteAt_eq]

theorem imageAt_eq (a : Nat) (v : BitVec N) :
    imageAt a v = (List.range (N / 8)).map fun i => (a + i, BitVec.ofNat 8 (v.toNat / 2 ^ (8 * i))) := by
  simp only [imageAt, byteAt_eq]

/-- The eight bytes at offset `8i` stand for word `i`. -/
theorem bytesToNat_image_word (h8 : 8 ∣ N) (v : BitVec N) (i : Nat) :
    bytesToNat (((image v).drop (8 * i)).take 8) = (wordOf v i).toNat := by
  rw [bytesToNat_take, bytesToNat_drop, bytesToNat_image h8, wordOf_toNat]

theorem ofImage_image (h8 : 8 ∣ N) (v : BitVec N) : ofImage N (image v) = v := by
  rw [ofImage, bytesToNat_image h8, BitVec.ofNat_toNat, BitVec.setWidth_eq]

theorem image_ofImage (h8 : 8 ∣ N) {bs : List Byte} (hlen : bs.length = N / 8) : image (ofImage N bs) = bs := by
  have hlt : bytesToNat bs < 2 ^ N := by rw [← pow_imageBytes h8, ← hlen]; exact bytesToNat_lt bs
  refine bytes_eq_of_bytesToNat ((image_length _).trans hlen.symm) ?_
  rw [bytesToNat_image h8, ofImage, BitVec.toNat_ofNat, Nat.mod_eq_of_lt hlt]

/-- The image of two slots is the lower slot's and then the upper one's. -/
theorem imagePair_eq (h8 : 8 ∣ N) (hi lo : BitVec N) : imagePair hi lo = image lo ++ image hi := by
  refine bytes_eq_of_bytesToNat ?_ ?_
  · rw [imagePair, image_length, List.length_append, image_length, image_length, Nat.add_div_of_dvd_left h8]
  · rw [imagePair, bytesToNat_append, bytesToNat_image (h8.add h8), bytesToNat_image h8, bytesToNat_image h8,
      image_length, pow_imageBytes h8]
    linarith [uintPair_eq hi lo, show uintPair hi lo = (hi ++ lo).toNat from rfl]

end Image

theorem eight_dvd_width (j : Nat) : 8 ∣ width j := by
  rw [width_eq]
  exact pow_dvd_pow 2 (by omega : 3 ≤ 6 + j)

/-! ### A command that takes no draw, whatever the draws are (00_scope.md R11, R18) -/

/-- The unit with this many draws taken. -/
def State.drawing (s : State) (d : Nat) : State := { s with draws := d }

/-- A fault returns no response (60_exceptions.md R303). -/
theorem State.withFault_ne_withResponse (s : State) (f : FaultLatch s.W) (r : Response s.W) :
    s.withFault f ≠ s.withResponse r := by
  intro h
  have hlen := congrArg (fun t : State => t.responses.length) h
  simp at hlen

/-- Where `a` is an answer of `s` that takes no draw and writes no context, `b` is the same answer of `s.drawing d`. -/
def AnswersAlike (s : State) (d : Nat) (a b : Result) : Prop :=
  ∀ r : Response s.W, a = .next (s.withResponse r) → b = .next ((s.drawing d).withResponse r)

namespace AnswersAlike

variable {s : State} {d : Nat} {a b a' b' : Result}

theorem respond (y0 y1 : BitVec s.W) (f : Bool) :
    AnswersAlike s d (s.respond y0 y1 f) ((s.drawing d).respond y0 y1 f) := by
  intro r h
  have hr : (⟨y0, y1, f⟩ : Response s.W) :: s.responses = r :: s.responses := by
    injection h with h
    injection h
  rw [← (List.cons.inj hr).1]
  rfl

/-- A fault is no answer. -/
theorem raise {f : FaultLatch s.W} : AnswersAlike s d (s.raise f) b :=
  fun r h => absurd (Host.Outcome.next.inj h) (s.withFault_ne_withResponse f r)

/-- An answer that takes a draw moves the counter. -/
theorem draws {t : State} (ht : t.draws ≠ s.draws) : AnswersAlike s d (.next t) b :=
  fun _ h => absurd (congrArg State.draws (Host.Outcome.next.inj h)) ht

theorem respondDraw : AnswersAlike s d s.respondDraw b := draws (by simp)

theorem respondDraws : AnswersAlike s d s.respondDraws b := draws (by simp)

theorem ite {p : Prop} [Decidable p] (h : AnswersAlike s d a b) (h' : AnswersAlike s d a' b') :
    AnswersAlike s d (if p then a else a') (if p then b else b') := by
  split
  · exact h
  · exact h'

end AnswersAlike

/-- Only the draws a command takes depend on the draws taken before it. -/
theorem exec_answersAlike {i : Instr} (hi : i ≠ .minit) (s : State) (d : Nat) :
    AnswersAlike s d (exec i s) (exec i (s.drawing d)) := by
  cases i
  case minit => exact absurd rfl hi
  case divremu | divrems | recip | powm => exact .ite .raise (.respond _ _ _)
  case wdiv | divw => exact .ite .raise (.ite .raise (.respond _ _ _))
  case divr => exact .ite .raise (.ite (.respond _ _ _) .respondDraws)
  case mreduce | mmul | mpow => exact .ite (.ite .respondDraw (.respond _ _ _)) .raise
  case mto | mfrom => exact .ite (.respond _ _ _) .raise
  all_goals exact .respond _ _ _

/-! ### A pure command in any unit (20_memory.md R69) -/

/-- An effect that is one more response, at a command that loads no context, is that answer alone. -/
theorem Effect.eq_answer {i : Instr} {s : State} {e : Effect s.W} {r : Response s.W} (he : e.Fits i) (hi : i ≠ .minit)
    (h : s.after e = s.withResponse r) : e = .answer r none 0 := by
  cases e with
  | fault f => exact absurd h (s.withFault_ne_withResponse f r)
  | answer r' written k =>
    obtain ⟨hminit, -⟩ := he
    have hk : s.draws + k = s.draws := congrArg State.draws h
    have hr : r' :: s.responses = r :: s.responses := by injection h
    obtain rfl : k = 0 := by omega
    cases written with
    | none => rw [(List.cons.inj hr).1]
    | some m => exact absurd (hminit.1 rfl) hi

/-- A command that answers in one unit without `MCTX` or a draw gives that answer in every unit that shows it. -/
theorem Answers.within_drawing {i : Instr} {s : State} {y0 y1 : BitVec s.W} {f : Bool} (h : Answers i s y0 y1 f)
    (hr : readsContext i = false) (hi : i ≠ .minit) (d : Nat) (u : Surroundings s.W) :
    Answers i ((s.drawing d).within u) y0 y1 f := by
  have hd : exec i (s.drawing d) = .next ((s.drawing d).withResponse ⟨y0, y1, f⟩) := exec_answersAlike hi s d _ h
  obtain ⟨e, he, hs, ht⟩ := exec_sameEffect_of_not_readsContext (s.drawing d) u hr hi
  obtain rfl := Effect.eq_answer he hi (Host.Outcome.next.inj (hs.symm.trans hd))
  exact ht

/-- `r` is the response to the command `c` in every unit with `FAULT = NONE`, and all that `c` changes. -/
def RespondsWith {j : Nat} (c : Command (width j)) (r : Response (width j)) : Prop :=
  ∀ (shown : Command (width j)) (rest : List (HostEvent (width j))) (rs : List (Response (width j))) (m : Mctx (width j))
      (d : Nat),
    step { j := j, cmd := shown, stream := .command c :: rest, responses := rs, mctx := m, fault := .none, draws := d } =
      .next { j := j, cmd := c, stream := rest, responses := r :: rs, mctx := m, fault := .none, draws := d }

theorem PureCommand.respondsWith {j : Nat} {c : Command (width j)} (h : PureCommand j c) : ∃ r, RespondsWith c r := by
  obtain ⟨i, y0, y1, f, hdec, hr, hi, hans⟩ := h
  refine ⟨⟨y0, y1, f⟩, fun shown rest rs m d => ?_⟩
  have hstep := step_legal (s := ⟨j, shown, .command c :: rest, rs, m, .none, d⟩) rfl rfl hdec
  exact hstep.trans (hans.within_drawing hr hi d ⟨rest, rs, .none, m⟩)

/-! ### Runs over an interleaving (20_memory.md R69, 70_reset_and_hazards.md R355) -/

/-- An interleaving holds no command but the agents'. -/
theorem Interleaving.mem {α : Type} {agents : List (List α)} {es : List α} (h : Interleaving agents es) :
    ∀ e ∈ es, ∃ a ∈ agents, e ∈ a := by
  induction h with
  | done _ => nofun
  | @accept before after e own es _ ih =>
    refine List.forall_mem_cons.2 ⟨⟨e :: own, by simp, by simp⟩, fun x hx => ?_⟩
    obtain ⟨a, ha, hxa⟩ := ih x hx
    rw [List.mem_append, List.mem_cons] at ha
    obtain hbefore | rfl | hafter := ha
    · exact ⟨a, by simp [hbefore], hxa⟩
    · exact ⟨e :: a, by simp, List.mem_cons_of_mem e hxa⟩
    · exact ⟨a, by simp [hafter], hxa⟩

/-- A run whose first step answers goes on from the next state. -/
theorem core_run_succ {s t : State} (k : Nat) (h : step s = .next t) :
    Sys2Proof.core.run (k + 1) s = Sys2Proof.core.run k t := by
  have hstep : Sys2Proof.core.step s = .next t := h
  simp only [Host.Core.run, hstep]

/-- A run of commands that each have their response returns those, in order, and ends with the last command shown. -/
theorem run_of_respondsWith {j : Nat} (answer : Command (width j) → Response (width j)) (m : Mctx (width j)) (d : Nat) :
    ∀ (es : List (Command (width j))) (shown : Command (width j)) (rs : List (Response (width j))),
      (∀ c ∈ es, RespondsWith c (answer c)) →
      Sys2Proof.core.run es.length
          { j := j, cmd := shown, stream := es.map .command, responses := rs, mctx := m, fault := .none, draws := d } =
        .next { j := j, cmd := es.getLastD shown, stream := [], responses := (es.map answer).reverse ++ rs, mctx := m,
                fault := .none, draws := d }
  | [], _, _, _ => rfl
  | c :: es, shown, rs, h => by
    obtain ⟨hc, hes⟩ := List.forall_mem_cons.1 h
    have hstep := hc shown (es.map .command) rs m d
    have hrun := run_of_respondsWith answer m d es c (answer c :: rs) hes
    rw [List.getLastD_cons, List.map_cons (f := answer), List.reverse_cons, List.append_assoc]
    exact (core_run_succ es.length hstep).trans hrun

/-! ### The statements -/

/-- Settles O53: an image is a number's digits in base 256, and as many bytes that stand for one number are one list. -/
theorem memoryImage : Obligations.MemoryImage := fun j v hi a =>
  have h8 := eight_dvd_width j
  ⟨image_length v, fun _ => image_getElem? v, imageAt_eq a v, fun i _ => bytesToNat_image_word h8 v i,
    ofImage_image h8 v, fun _ => image_ofImage h8, imagePair_eq h8 hi v⟩

/-- Settles O46: every command of an interleaving is some agent's, and a pure command has one response in every unit. -/
theorem interleavingsGiveTheSameResponses : Obligations.InterleavingsGiveTheSameResponses := by
  intro j agents hpure
  have hanswer : ∀ c, ∃ r, PureCommand j c → RespondsWith c r := fun c => by
    by_cases hc : PureCommand j c
    · obtain ⟨r, hr⟩ := hc.respondsWith
      exact ⟨r, fun _ => hr⟩
    · exact ⟨⟨0, 0, false⟩, fun h => absurd h hc⟩
  choose answer hanswer using hanswer
  refine ⟨answer, fun es shown rs m d hes => ⟨_, es.getLastD shown, ?_, rfl, rfl, rfl⟩⟩
  refine run_of_respondsWith answer m d es shown rs fun c hc => ?_
  obtain ⟨a, ha, hca⟩ := hes.mem c hc
  exact hanswer c (hpure a ha c hca)

end Sys2Proof.Machine

/-! ## Encoding: the words a unit has, what they run, and the assembler's lines (30_encoding.md) -/

namespace Sys2Proof.Machine

/-! ### The fields of a command word as numbers (30_encoding.md R81) -/

section Fields

variable (cmd : CommandWord) (opc : BitVec 8) (s alg : Bool) (m : BitVec 4)

theorem opcOf_toNat : (opcOf cmd).toNat = cmd.toNat % 256 := by
  simp [opcOf, BitVec.extractLsb'_toNat]

theorem signOf_iff : signOf cmd = true ↔ cmd.toNat / 256 % 2 = 1 := by
  simp [signOf, BitVec.getLsbD, Nat.testBit_eq_decide_div_mod_eq]

theorem algOf_iff : algOf cmd = true ↔ cmd.toNat / 512 % 2 = 1 := by
  simp [algOf, BitVec.getLsbD, Nat.testBit_eq_decide_div_mod_eq]

theorem widthCodeOf_toNat : (widthCodeOf cmd).toNat = cmd.toNat / 1024 % 16 := by
  simp [widthCodeOf, BitVec.extractLsb'_toNat, Nat.shiftRight_eq_div_pow]

theorem reservedOf_toNat : (reservedOf cmd).toNat = cmd.toNat / 16384 := by
  have := cmd.isLt
  simp only [reservedOf, BitVec.extractLsb'_toNat, Nat.shiftRight_eq_div_pow]
  omega

theorem toNat_append_eq {M N : Nat} (hi : BitVec M) (lo : BitVec N) :
    (hi ++ lo).toNat = hi.toNat * 2 ^ N + lo.toNat := by
  rw [BitVec.toNat_append, ← Nat.shiftLeft_add_eq_or_of_lt lo.isLt, Nat.shiftLeft_eq]

theorem commandWord_toNat :
    (commandWord opc s alg m).toNat = 1024 * m.toNat + 512 * alg.toNat + 256 * s.toNat + opc.toNat := by
  simp only [commandWord, toNat_append_eq, BitVec.toNat_ofBool, BitVec.toNat_ofNat]
  omega

@[simp] theorem opcOf_commandWord : opcOf (commandWord opc s alg m) = opc := by
  rw [← BitVec.toNat_inj, opcOf_toNat, commandWord_toNat]
  omega

@[simp] theorem signOf_commandWord : signOf (commandWord opc s alg m) = s := by
  rw [Bool.eq_iff_iff, signOf_iff, commandWord_toNat]
  cases s <;> simp <;> omega

@[simp] theorem algOf_commandWord : algOf (commandWord opc s alg m) = alg := by
  have := s.toNat_le
  rw [Bool.eq_iff_iff, algOf_iff, commandWord_toNat]
  cases alg <;> simp <;> omega

@[simp] theorem widthCodeOf_commandWord : widthCodeOf (commandWord opc s alg m) = m := by
  have := s.toNat_le
  have := alg.toNat_le
  rw [← BitVec.toNat_inj, widthCodeOf_toNat, commandWord_toNat]
  omega

@[simp] theorem reservedOf_commandWord : reservedOf (commandWord opc s alg m) = 0 := by
  have := s.toNat_le
  have := alg.toNat_le
  rw [eq_zero_iff_toNat, reservedOf_toNat, commandWord_toNat]
  omega

end Fields

/-! ### What decoding accepts (30_encoding.md R86 to R89) -/

/-- Every assigned `OPC` has a row, and every one with a signed form has a second, whatever the free fields are. -/
theorem exists_opcodeRow {opc : BitVec 8} {s : Bool} (ho : opc ∈ assignedOpcodes) (hs : s = true → opc ∈ signedOpcodes)
    (alg : Alg) (m : BitVec 4) : ∃ i, opcodeRow opc s alg m = some i := by
  rw [← Option.isSome_iff_exists]
  cases s with
  | false => exact List.all_eq_true.1 (rfl : assignedOpcodes.all (opcodeRow · false alg m |>.isSome) = true) opc ho
  | true => exact List.all_eq_true.1 (rfl : signedOpcodes.all (opcodeRow · true alg m |>.isSome) = true) opc (hs rfl)

@[simp] theorem Alg.ofBit_bit (alg : Alg) : Alg.ofBit alg.bit = alg := by cases alg <;> rfl

/-- An instruction's own word finds its row (R86). -/
theorem opcodeRow_encode (i : Instr) :
    opcodeRow (opcOf (encode i)) (signOf (encode i)) (.ofBit (algOf (encode i))) (widthCodeOf (encode i)) = some i := by
  cases i
  all_goals
    simp only [encode, opcOf_commandWord, signOf_commandWord, algOf_commandWord, widthCodeOf_commandWord, Alg.ofBit_bit]
    rfl

open Laws.EncodedFields in
/-- What R88 checks of a word but for the width holds of every instruction's own word. -/
theorem encodedFields : (i : Instr) → Statement i
  | .wadc => wadc | .wsbc => wsbc | .wmul => wmul | .wdiv => wdiv | .wclz => wclz
  | .add => add | .sub => sub | .adc => adc | .sbc => sbc | .neg => neg
  | .mul => mul | .mulw => mulw | .mulhi => mulhi | .mulhia => mulhia
  | .divremu alg => divremu alg | .divrems alg => divrems alg | .divw => divw | .recip => recip | .divr => divr
  | .bitAnd => bitAnd | .bitOr => bitOr | .bitXor => bitXor | .bitNot => bitNot
  | .shl => shl | .shr => shr | .sar => sar | .clz => clz
  | .cmpu => cmpu | .cmps => cmps | .extz m => extz m | .exts m => exts m
  | .pow => pow | .powm => powm | .gcd => gcd
  | .minit => minit | .mreduce => mreduce | .mmul => mmul | .mpow => mpow | .mto => mto | .mfrom => mfrom

/-- The width check of R88 on an instruction's own word is the instruction's well-formedness. -/
theorem wellFormed_iff {W : Nat} (i : Instr) :
    i.wellFormed W = true ↔ (opcOf (encode i) = 0x54 → sourceWidth (widthCodeOf (encode i)) ≤ W) := by
  cases i <;> simp [encode, Instr.wellFormed]

/-- Decoding gives back a command the unit has: its word passes every check of R88. -/
theorem decode_encode {W : Nat} {i : Instr} (hi : i.wellFormed W = true) : decode W (encode i) = .ok i := by
  obtain ⟨hrsv, hopc, hsign, halg, hcode⟩ := encodedFields i
  have hwide := (wellFormed_iff i).1 hi
  rw [decode, if_neg (not_not.2 hrsv), if_neg (not_not.2 hopc), if_neg fun ⟨hs, ho⟩ => ho (hsign hs),
    if_neg fun ⟨ha, ho⟩ => ho (halg ha), if_neg fun ⟨ho, hw⟩ => (hwide ho).not_gt hw,
    if_neg fun ⟨ho, hm⟩ => ho (hcode hm), opcodeRow_encode]

/-- Decoding accepts only commands the unit has. -/
theorem wellFormed_of_decode {W : Nat} {cmd : CommandWord} {i : Instr} (h : decode W cmd = .ok i) :
    i.wellFormed W = true := by
  rw [wellFormed_iff, encode_of_decode h]
  obtain ⟨-, -, hwide, -⟩ := decode_ok h
  exact hwide

/-- R88 refuses a word exactly where one of its checks fails: a word that passes them all has a row. -/
theorem exists_decode_error_iff {W : Nat} {cmd : CommandWord} :
    (∃ err, decode W cmd = .error err) ↔
      reservedOf cmd ≠ 0 ∨ opcOf cmd ∉ assignedOpcodes ∨ (signOf cmd = true ∧ opcOf cmd ∉ signedOpcodes) ∨
      (algOf cmd = true ∧ opcOf cmd ≠ 0x30) ∨ (opcOf cmd ≠ 0x54 ∧ widthCodeOf cmd ≠ 0) ∨
      (opcOf cmd = 0x54 ∧ W < sourceWidth (widthCodeOf cmd)) := by
  unfold decode
  split_ifs with hrsv hopc hsign halg hwide hcode
  case neg =>
    obtain ⟨i, hrow⟩ := exists_opcodeRow hopc (fun hs => not_not.1 fun ho => hsign ⟨hs, ho⟩)
      (.ofBit (algOf cmd)) (widthCodeOf cmd)
    rw [hrow]
    exact iff_of_false nofun (by simp_all)
  all_goals exact iff_of_true ⟨_, rfl⟩ (by simp_all)

/-- The unassigned opcodes are R89's ranges. -/
theorem notMem_assignedOpcodes_iff (opc : BitVec 8) :
    opc ∉ assignedOpcodes ↔
      opc.toNat = 0x00 ∨ 0x06 ≤ opc.toNat ∧ opc.toNat ≤ 0x0F ∨ 0x15 ≤ opc.toNat ∧ opc.toNat ≤ 0x1F ∨
      0x24 ≤ opc.toNat ∧ opc.toNat ≤ 0x2F ∨ 0x34 ≤ opc.toNat ∧ opc.toNat ≤ 0x3F ∨
      0x44 ≤ opc.toNat ∧ opc.toNat ≤ 0x47 ∨ opc.toNat = 0x4A ∨ opc.toNat = 0x4B ∨
      0x4D ≤ opc.toNat ∧ opc.toNat ≤ 0x4F ∨ 0x51 ≤ opc.toNat ∧ opc.toNat ≤ 0x53 ∨
      0x55 ≤ opc.toNat ∧ opc.toNat ≤ 0x5F ∨ 0x63 ≤ opc.toNat ∧ opc.toNat ≤ 0x6F ∨ 0x76 ≤ opc.toNat := by
  simp [assignedOpcodes, ← BitVec.toNat_inj]
  omega

theorem notMem_signedOpcodes_iff (opc : BitVec 8) :
    opc ∉ signedOpcodes ↔ opc.toNat ≠ 0x30 ∧ opc.toNat ≠ 0x49 ∧ opc.toNat ≠ 0x50 ∧ opc.toNat ≠ 0x54 := by
  simp [signedOpcodes, ← BitVec.toNat_inj]

/-! ### An instruction's word presented to a unit -/

/-- `i`, which every unit has, divides `X[0]` by `X[1]` and answers the quotient and remainder `f` gives (43_divider.md
R170). -/
structure Divides (i : Instr) (f : {N : Nat} → BitVec N → BitVec N → BitVec N × BitVec N) : Prop where
  wellFormed : ∀ W, i.wellFormed W = true
  exec_eq : ∀ s : State,
    exec i s = s.requireNonzero s.X1 .x1 (s.respond (f s.X0 s.X1).1 (f s.X0 s.X1).2 false)

theorem divides_divremu (alg : Alg) : Divides (.divremu alg) divRemU := ⟨fun _ => rfl, fun _ => rfl⟩

theorem divides_divrems (alg : Alg) : Divides (.divrems alg) divRemS := ⟨fun _ => rfl, fun _ => rfl⟩

section Presented

variable {s : State} {c : Command s.W} (rest : List (HostEvent s.W))
  {i : Instr} {f : {N : Nat} → BitVec N → BitVec N → BitVec N × BitVec N}

/-- A presented word of an instruction the unit has runs the instruction. -/
theorem step_encoded (hf : s.fault = .none) (hw : c.word = encode i) (hi : i.wellFormed s.W = true) :
    step { s with stream := .command c :: rest } = exec i { s with cmd := c, stream := rest } :=
  step_legal (s := { s with stream := .command c :: rest }) rfl hf (by rw [hw]; exact decode_encode hi)

/-- A division of a nonzero divisor answers its quotient and remainder. -/
theorem step_division (hi : Divides i f) (hf : s.fault = .none) (hw : c.word = encode i)
    (hd : c.x1 ≠ 0) :
    step { s with stream := .command c :: rest } = .next { s with
      cmd := c, stream := rest, responses := ⟨(f c.x0 c.x1).1, (f c.x0 c.x1).2, false⟩ :: s.responses } := by
  rw [step_encoded rest hf hw (hi.wellFormed _), hi.exec_eq]
  exact State.requireNonzero_pos _ hd _ _

/-- A division by zero faults, with the word presented. -/
theorem step_division_zero (hi : Divides i f) (hf : s.fault = .none) (hw : c.word = encode i)
    (hd : c.x1 = 0) :
    step { s with stream := .command c :: rest } =
      .next { s with cmd := c, stream := rest, fault := .divideByZero c.word .x1 } := by
  rw [step_encoded rest hf hw (hi.wellFormed _), hi.exec_eq]
  exact State.requireNonzero_zero _ hd _ _

end Presented

/-! ### Assembler lines (30_encoding.md R91) -/

theorem mem_widthCodes (m : BitVec 4) : m ∈ widthCodes := by revert m; decide

theorem mem_allInstrs (i : Instr) : i ∈ allInstrs := by
  cases i
  case divremu alg | divrems alg => cases alg <;> decide
  case extz m | exts m => simp [allInstrs, mem_widthCodes]
  all_goals decide

/-- No two instructions have the same mnemonic and suffix. -/
theorem nodup_names : (allInstrs.map fun i => (mnemonicOf i, suffixOf i)).Nodup := by decide

theorem instr_eq_of_names {i k : Instr} (hm : mnemonicOf i = mnemonicOf k) (hs : suffixOf i = suffixOf k) : i = k :=
  List.inj_on_of_nodup_map nodup_names (mem_allInstrs i) (mem_allInstrs k) (Prod.ext hm hs)

theorem asmInstr_eq_some_iff {mnemonic : String} {suffix : Option AsmSuffix} {i : Instr} :
    asmInstr mnemonic suffix = some i ↔ mnemonicOf i = mnemonic ∧ suffixOf i = suffix := by
  have names {k : Instr} (h : asmInstr mnemonic suffix = some k) : mnemonicOf k = mnemonic ∧ suffixOf k = suffix := by
    simpa using List.find?_some h
  refine ⟨names, fun ⟨hm, hs⟩ => ?_⟩
  obtain ⟨k, hk⟩ : ∃ k, asmInstr mnemonic suffix = some k :=
    Option.isSome_iff_exists.1 (List.find?_isSome.2 ⟨i, mem_allInstrs i, by simp [hm, hs]⟩)
  obtain ⟨hm', hs'⟩ := names hk
  rw [hk, instr_eq_of_names (hm'.trans hm.symm) (hs'.trans hs.symm)]

/-! ### Pseudo-commands (30_encoding.md R92) -/

theorem encode_extz (m : BitVec 4) : encode (.extz m) = BitVec.ofNat 16 (0x0054 + 0x0400 * m.toNat) := by
  revert m; decide

theorem zeroExtendFrom_eq {N : Nat} (m : Nat) (v : BitVec N) :
    zeroExtendFrom m v = BitVec.ofNat N (v.toNat % 2 ^ m) := by
  rw [← BitVec.toNat_inj]; simp [zeroExtendFrom]

/-- The comparator's outputs differ (45_compare_convert.md R230, R231). -/
theorem orderBits_inj {j : Nat} {o o' : Ordering} : orderBits (width j) o = orderBits (width j) o' ↔ o = o' := by
  refine ⟨fun h => ?_, congrArg _⟩
  have hint := congrArg BitVec.toInt h
  rw [orderBits_toInt, orderBits_toInt] at hint
  cases o <;> cases o' <;> simp_all

theorem compareS_eq_lt_iff {N : Nat} {a b : BitVec N} : compareS a b = .lt ↔ a.toInt < b.toInt := by
  unfold compareS; split_ifs <;> simp_all

theorem compareU_eq_eq_iff {N : Nat} {a b : BitVec N} : compareU a b = .eq ↔ a = b := by
  rw [← BitVec.toNat_inj]
  unfold compareU; split_ifs <;> simp <;> omega

/-! ### The statements -/

/-- Settles O2: the word of a command has the fields of its row, and decoding's width check is well-formedness. -/
theorem decodeOfEncodeIsIdentity : Obligations.DecodeOfEncodeIsIdentity := fun _ _ hi => decode_encode hi

/-- Settles O3: the row decoding finds has the word's fields, and its width check is well-formedness. -/
theorem acceptedWordsAreEncodings : Obligations.AcceptedWordsAreEncodings :=
  fun _ _ _ h => ⟨wellFormed_of_decode h, encode_of_decode h⟩

/-- Settles O4: decoding's checks, read as numbers, are R89's list. -/
theorem illegalWordsFault : Obligations.IllegalWordsFault := by
  intro s c rest hs hf opc signed alg m rsv illegal
  have herror : (∃ err, decode s.W c.word = .error err) ↔ illegal := by
    simp only [exists_decode_error_iff, notMem_assignedOpcodes_iff, notMem_signedOpcodes_iff, signOf_iff, algOf_iff,
      sourceWidth, ne_eq, ← BitVec.toNat_inj, reservedOf_toNat, opcOf_toNat, widthCodeOf_toNat]
    exact Iff.rfl
  refine ⟨fun hill => ?_, fun hlegal => ?_⟩
  · obtain ⟨err, hd⟩ := herror.2 hill
    exact step_illegal hs hf hd
  · cases hd : decode s.W c.word with
    | ok i => exact ⟨i, rfl⟩
    | error err => exact absurd (herror.1 ⟨err, hd⟩) hlegal

/-- Settles O30: the words with `ALG = 1` are those of the same division by the exact path. -/
theorem algorithmBitChangesNoResult : Obligations.AlgorithmBitChangesNoResult := by
  intro s x0 x1 x2 x3 rest word hword hf c0 c1
  obtain ⟨i₀, i₁, f, h₀, h₁, hw₀, hw₁⟩ : ∃ (i₀ i₁ : Instr) (f : {N : Nat} → BitVec N → BitVec N → BitVec N × BitVec N),
      Divides i₀ f ∧ Divides i₁ f ∧ c0.word = encode i₀ ∧ c1.word = encode i₁ := by
    obtain rfl | rfl := hword
    · exact ⟨_, _, _, divides_divremu .reciprocal, divides_divremu .exact, rfl, rfl⟩
    · exact ⟨_, _, _, divides_divrems .reciprocal, divides_divrems .exact, rfl, rfl⟩
  refine ⟨fun hx => ?_, fun hx => ?_⟩
  · have hd : x1 ≠ 0 := mt (eq_zero_iff_toNat x1).1 hx
    exact ⟨_, step_division rest h₀ hf hw₀ hd, step_division rest h₁ hf hw₁ hd⟩
  · have hd : x1 = 0 := (eq_zero_iff_toNat x1).2 hx
    exact ⟨step_division_zero rest h₀ hf hw₀ hd, step_division_zero rest h₁ hf hw₁ hd⟩

/-- Settles O54: the names of the instructions are apart, so the line's name finds its own instruction or none. -/
theorem assemblerNamesInstructions : Obligations.AssemblerNamesInstructions := by
  intro W i mnemonic suffix v0 v1 v2 v3 slot
  have hslot (v : Option AsmValue) : asmSlot W v = slot v := by
    obtain _ | _ | _ := v <;> rfl
  refine ⟨asmInstr_eq_some_iff, ?_, fun hnone => ?_⟩
  · simp only [assemble, asmInstr_eq_some_iff.2 ⟨rfl, rfl⟩, Option.map_some, hslot]
  · have hno : asmInstr mnemonic suffix = none :=
      Option.eq_none_iff_forall_ne_some.2 fun k hk => hnone k (asmInstr_eq_some_iff.1 hk)
    simp only [assemble, hno, Option.map_none]

/-- Settles O55: each expansion is the word of an instruction the unit has, which the step runs. -/
theorem pseudoCommandsReadBack : Obligations.PseudoCommandsReadBack := by
  intro s a b rest hf back
  have plain {p : Pseudo} {i : Instr} {y : BitVec s.W} (hp : (p.expand a b).word = encode i)
      (hi : i.wellFormed s.W = true)
      (hrun : exec i { s with cmd := p.expand a b, stream := rest } =
        .next { s with cmd := p.expand a b, stream := rest, responses := ⟨y, 0, false⟩ :: s.responses })
      (hy : p.readBack ⟨y, 0, false⟩ = y) : back p y :=
    ⟨_, (step_encoded rest hf hp hi).trans hrun, hy⟩
  refine ⟨fun m => ?_, rfl, rfl, rfl, rfl, rfl, rfl, rfl, rfl, fun m hm => ?_, fun hb => ⟨?_, ?_, ?_, ?_⟩, ?_, ?_, ?_, ?_⟩
  · rw [← encode_extz]; rfl
  · rw [← zeroExtendFrom_eq]
    exact plain (i := .extz m) rfl (decide_eq_true hm) rfl rfl
  · exact ⟨_, step_division rest (divides_divremu .reciprocal) hf rfl hb, rfl⟩
  · exact ⟨_, step_division rest (divides_divremu .reciprocal) hf rfl hb, rfl⟩
  · exact ⟨_, step_division rest (divides_divrems .reciprocal) hf rfl hb, rfl⟩
  · exact ⟨_, step_division rest (divides_divrems .reciprocal) hf rfl hb, rfl⟩
  · rw [← addCarry_false]
    exact plain (i := .add) rfl rfl rfl rfl
  · rw [← subBorrow_false]
    exact plain (i := .sub) rfl rfl rfl rfl
  · refine ⟨orderBits s.W (compareS a 0), plain (i := .cmps) rfl rfl rfl rfl, ?_⟩
    exact (orderBits_inj (o' := .lt)).trans (by simp [compareS_eq_lt_iff])
  · refine ⟨orderBits s.W (compareU a 0), plain (i := .cmpu) rfl rfl rfl rfl, ?_⟩
    exact (orderBits_inj (o' := .eq)).trans compareU_eq_eq_iff

/-- Settles O1: the decoder run on each word. -/
theorem sampleWordsDecode : Obligations.SampleWordsDecode := by
  unfold Obligations.SampleWordsDecode
  decide

end Sys2Proof.Machine

/-! ## Word primitives: a word's arithmetic in a unit of any width (40_word_primitives.md) -/

namespace Sys2Proof.Machine

/-! ### The shared functions as numbers (41_adder_subtractor.md R133, R134; 43_divider.md R173) -/

section Values

variable {N : Nat} (c : Bool) (a b : BitVec N) {nh nl d : BitVec N}

theorem addCarry_sum_toNat : (addCarry c a b).1.toNat = (a.toNat + b.toNat + c.toNat) % 2 ^ N :=
  BitVec.toNat_ofNat _ _

theorem addCarry_carry : (addCarry c a b).2 = decide (2 ^ N ≤ a.toNat + b.toNat + c.toNat) := rfl

theorem subBorrow_difference_toNat :
    (subBorrow c a b).1.toNat = (((a.toNat : Int) - b.toNat - c.toNat) % 2 ^ N).toNat := by
  rw [subBorrow, BitVec.toNat_ofInt]
  norm_cast

theorem subBorrow_borrow : (subBorrow c a b).2 = decide ((a.toNat : Int) - b.toNat - c.toNat < 0) := rfl

/-- Below the overflow bound the quotient is not cut. -/
theorem divWide_quotient_toNat (h : nh.toNat < d.toNat) :
    (divWide nh nl d).1.toNat = (nh.toNat * 2 ^ N + nl.toNat) / d.toNat := by
  rw [divWide, uintPair_eq, BitVec.toNat_ofNat, Nat.mod_eq_of_lt (wideQuotient_lt h nl.isLt)]

/-- The remainder by a nonzero divisor is not cut. -/
theorem divWide_remainder_toNat (hd : 0 < d.toNat) :
    (divWide nh nl d).2.toNat = (nh.toNat * 2 ^ N + nl.toNat) % d.toNat := by
  rw [divWide, uintPair_eq, BitVec.toNat_ofNat, Nat.mod_eq_of_lt ((Nat.mod_lt _ hd).trans d.isLt)]

end Values

/-! ### Words at `W = 64` (40_word_primitives.md R110) -/

theorem lowWord_width_zero (v : BitVec (width 0)) : lowWord v = v := BitVec.setWidth_eq (n := 64) v

theorem zextWord_width_zero (v : Word) : zextWord (width 0) v = v := BitVec.setWidth_eq v

/-! ### The statements -/

/-- Settles O16: a word primitive's result is the word function's value, which is below `2^64`. -/
theorem wordAddAndSubtract : Obligations.WordAddAndSubtract := by
  intro s a b c
  refine ⟨decode_encode (i := .wadc) rfl, ?_, decode_encode (i := .wsbc) rfl, ?_⟩
  · show execWadc s = _
    simp only [execWadc, zextWord_eq, addCarry_sum_toNat, addCarry_carry, lowWord_toNat, carryBit_toNat]
    exact s.respond_eq _ _ _
  · show execWsbc s = _
    simp only [execWsbc, zextWord_eq, subBorrow_difference_toNat, subBorrow_borrow, lowWord_toNat, carryBit_toNat]
    exact s.respond_eq _ _ _

/-- Settles O17: the product of two words fits two words. -/
theorem wordMultiply : Obligations.WordMultiply := by
  intro s p
  refine ⟨decode_encode (i := .wmul) rfl, ?_⟩
  show execWmul s = _
  simp only [execWmul, zextWord_eq, lowHalf_toNat, highHalf_toNat, fullProduct_toNat, lowWord_toNat]
  exact s.respond_eq _ _ _

/-- Settles O18: the two checks in their order, and below the overflow bound neither result is cut. -/
theorem wordDivide : Obligations.WordDivide := by
  intro s nh nl d
  have hd : (lowWord s.X2).toNat = d := lowWord_toNat s.X2
  have hnh : (lowWord s.X0).toNat = nh := lowWord_toNat s.X0
  have hnl : (lowWord s.X1).toNat = nl := lowWord_toNat s.X1
  have hzero : lowWord s.X2 = 0 ↔ d = 0 := lowWord_eq_zero_iff s.X2
  refine ⟨decode_encode (i := .wdiv) rfl, fun h => ?_, fun h hle => ?_, fun hlt => ⟨?_, ?_⟩⟩
  · exact s.requireNonzero_zero (hzero.2 h) _ _
  · refine (s.requireNonzero_pos (mt hzero.1 h) _ _).trans ?_
    exact s.requireBelow_above (by rwa [hd, hnh]) _
  · have hbelow : (lowWord s.X0).toNat < (lowWord s.X2).toNat := by rwa [hd, hnh]
    have hpos : 0 < (lowWord s.X2).toNat := by omega
    show execWdiv s = _
    rw [execWdiv, s.requireNonzero_pos (mt hzero.1 (by omega)), s.requireBelow_below hbelow]
    simp only [zextWord_eq, divWide_quotient_toNat hbelow, divWide_remainder_toNat hpos, hd, hnh, hnl]
    exact s.respond_eq _ _ _
  · exact wideQuotient_lt hlt (Nat.mod_lt _ (Nat.two_pow_pos 64))

/-- Settles O19: WCLZ counts in the low word, CLZ in the whole slot. -/
theorem leadingZeroCounts : Obligations.LeadingZeroCounts := by
  intro s
  have wclz {n : Nat} (h : leadingZeros (lowWord s.X0) = n) : Returns .wclz s (BitVec.ofNat s.W n) :=
    h ▸ s.respond0_eq _
  have clz {n : Nat} (h : leadingZeros s.X0 = n) : Returns .clz s (BitVec.ofNat s.W n) :=
    h ▸ s.respond0_eq _
  have hx : (lowWord s.X0).toNat = s.X0.toNat % 2 ^ 64 := lowWord_toNat s.X0
  refine ⟨decode_encode (i := .wclz) rfl, decode_encode (i := .clz) rfl, fun h => wclz ?_, fun k hlo hhi => wclz ?_,
    fun h => clz ?_, fun k hlo hhi => clz (leadingZeros_of_bounds hlo hhi)⟩
  · rw [(lowWord_eq_zero_iff s.X0).2 h, leadingZeros_zero]
  · rw [← hx] at hlo hhi
    exact leadingZeros_of_bounds hlo hhi
  · rw [(eq_zero_iff_toNat s.X0).2 h, leadingZeros_zero]

/-- Settles O20: at `W = 64` a slot is its low word, and a word fills its slot. -/
theorem wordPrimitivesAtWidth64 : Obligations.WordPrimitivesAtWidth64 := by
  rintro ⟨j, cmd, stream, responses, mctx, fault, draws⟩ (rfl : j = 0)
  simp only [exec, execWadc, execWsbc, execWmul, execWdiv, execWclz, State.W, lowWord_width_zero, zextWord_width_zero]
  exact ⟨rfl, rfl, rfl, rfl, rfl⟩

end Sys2Proof.Machine

/-! ## Adder and subtractor: the commands at full width, and the tree that computes them (41_adder_subtractor.md) -/

namespace Sys2Proof.Machine

/-! ### A result and its flag as one number (41_adder_subtractor.md R133, R134) -/

section Flagged

variable {N : Nat} {r q : BitVec N × Bool}

/-- A sum is determined with its carry by the number the two stand for, as its remainder and quotient by `2^N`. -/
theorem eq_of_carry_value (h : r.1.toNat + r.2.toNat * 2 ^ N = q.1.toNat + q.2.toNat * 2 ^ N) : r = q := by
  have hflag : ∀ k l : Bool, k.toNat = l.toNat → k = l := by decide
  have hdigits (p : BitVec N × Bool) := (Nat.div_mod_unique (Nat.two_pow_pos N)).2
    ⟨show p.1.toNat + 2 ^ N * p.2.toNat = p.1.toNat + p.2.toNat * 2 ^ N by rw [mul_comm], p.1.isLt⟩
  obtain ⟨hr, hr'⟩ := hdigits r
  obtain ⟨hq, hq'⟩ := hdigits q
  rw [h] at hr hr'
  exact Prod.ext (BitVec.eq_of_toNat_eq (hr'.symm.trans hq')) (hflag _ _ (hr.symm.trans hq))

/-- A difference is determined with its borrow by the number the two stand for: here each borrow is on the other side. -/
theorem eq_of_borrow_value (h : r.1.toNat + q.2.toNat * 2 ^ N = q.1.toNat + r.2.toNat * 2 ^ N) : r = q := by
  obtain ⟨hdiff, hborrow⟩ := Prod.ext_iff.1 (eq_of_carry_value (r := (r.1, q.2)) (q := (q.1, r.2)) h)
  exact Prod.ext hdiff hborrow.symm

variable (c : Bool) (a b : BitVec N)

/-- What the sum loses is in the carry. -/
theorem addCarry_value :
    (addCarry c a b).1.toNat + (addCarry c a b).2.toNat * 2 ^ N = a.toNat + b.toNat + c.toNat := by
  have ha := a.isLt
  have hb := b.isLt
  have hc := c.toNat_le
  rw [addCarry_sum_toNat, addCarry_carry]
  by_cases h : 2 ^ N ≤ a.toNat + b.toNat + c.toNat
  · rw [Nat.mod_eq_sub_mod h, Nat.mod_eq_of_lt (by omega), decide_eq_true h, Bool.toNat_true]
    omega
  · rw [Nat.mod_eq_of_lt (by omega), decide_eq_false h, Bool.toNat_false]
    omega

/-- What the minuend lacks is in the borrow. -/
theorem subBorrow_value :
    (subBorrow c a b).1.toNat + b.toNat + c.toNat = a.toNat + (subBorrow c a b).2.toNat * 2 ^ N := by
  have ha := a.isLt
  have hb := b.isLt
  have hc := c.toNat_le
  have hP : ((2 ^ N : Nat) : Int) = 2 ^ N := by norm_cast
  rw [subBorrow_difference_toNat, subBorrow_borrow]
  by_cases h : (a.toNat : Int) - b.toNat - c.toNat < 0
  · rw [← Int.add_emod_right, Int.emod_eq_of_lt (by omega) (by omega), decide_eq_true h, Bool.toNat_true]
    omega
  · rw [Int.emod_eq_of_lt (by omega) (by omega), decide_eq_false h, Bool.toNat_false]
    omega

end Flagged

/-! ### The ripple through the two halves (41_adder_subtractor.md R130) -/

section Halves

variable {j : Nat} (c : Bool) (a b : BitVec (width (j + 1)))

theorem two_pow_width_succ (j : Nat) : 2 ^ width (j + 1) = 2 ^ width j * 2 ^ width j := pow_add _ _ _

/-- The low halves' carry is the high halves' carry in. -/
theorem addCarry_halves :
    let l := addCarry c (loPart a) (loPart b)
    let h := addCarry l.2 (hiPart a) (hiPart b)
    (ofParts h.1 l.1, h.2) = addCarry c a b := by
  intro l h
  have hl : l.1.toNat + l.2.toNat * _ = _ := addCarry_value c (loPart a) (loPart b)
  have hh : h.1.toNat + h.2.toNat * _ = _ := addCarry_value l.2 (hiPart a) (hiPart b)
  apply eq_of_carry_value
  rw [addCarry_value, toNat_eq_parts a, toNat_eq_parts b, ofParts_toNat, two_pow_width_succ]
  linear_combination hl + 2 ^ width j * hh

/-- The low halves' borrow is the high halves' borrow in. -/
theorem subBorrow_halves :
    let l := subBorrow c (loPart a) (loPart b)
    let h := subBorrow l.2 (hiPart a) (hiPart b)
    (ofParts h.1 l.1, h.2) = subBorrow c a b := by
  intro l h
  have hl : l.1.toNat + _ + _ = _ := subBorrow_value c (loPart a) (loPart b)
  have hh : h.1.toNat + _ + _ = _ := subBorrow_value l.2 (hiPart a) (hiPart b)
  have hv := subBorrow_value c a b
  rw [toNat_eq_parts a, toNat_eq_parts b, two_pow_width_succ] at hv
  apply eq_of_borrow_value
  rw [ofParts_toNat, two_pow_width_succ]
  linear_combination hl + 2 ^ width j * hh - hv

end Halves

theorem adcTree_eq (j : Nat) (c : Bool) (a b : BitVec (width j)) : adcTree j c a b = addCarry c a b := by
  induction j generalizing c with
  | zero => rfl
  | succ j ih =>
    rw [adcTree, ← addCarry_halves]
    simp only [ih]

theorem sbcTree_eq (j : Nat) (c : Bool) (a b : BitVec (width j)) : sbcTree j c a b = subBorrow c a b := by
  induction j generalizing c with
  | zero => rfl
  | succ j ih =>
    rw [sbcTree, ← subBorrow_halves]
    simp only [ih]

/-! ### The commands' numbers as the library's operations -/

section Numbers

variable {N : Nat} (a b : BitVec N)

theorem ofNat_toNat_add_toNat : BitVec.ofNat N (a.toNat + b.toNat) = a + b := by
  simp [BitVec.ofNat_add]

theorem ofNat_toNat_mul_toNat : BitVec.ofNat N (a.toNat * b.toNat) = a * b := by
  simp [BitVec.ofNat_mul]

theorem ofInt_toNat_sub_toNat : BitVec.ofInt N ((a.toNat : Int) - b.toNat) = a - b := by
  rw [← subBorrow_false]
  simp [subBorrow]

theorem ofInt_neg_toNat : BitVec.ofInt N (-(a.toNat : Int)) = -a := by
  simp [BitVec.ofInt_neg]

end Numbers

/-! ### What the commands answer (41_adder_subtractor.md R131 to R135; 42_multiplier.md R151; 43_divider.md R171) -/

section Commands

variable (s : State)

theorem returns_add : Returns .add s (s.X0 + s.X1) := by
  rw [← addCarry_false]
  exact s.respond0_eq _

theorem returns_sub : Returns .sub s (s.X0 - s.X1) := by
  rw [← subBorrow_false]
  exact s.respond0_eq _

theorem answers_adc :
    Answers .adc s (addCarry (carryBit s.X2) s.X0 s.X1).1 0 (addCarry (carryBit s.X2) s.X0 s.X1).2 :=
  s.respond_eq _ _ _

theorem answers_sbc :
    Answers .sbc s (subBorrow (carryBit s.X2) s.X0 s.X1).1 0 (subBorrow (carryBit s.X2) s.X0 s.X1).2 :=
  s.respond_eq _ _ _

theorem returns_neg : Returns .neg s (-s.X0) := by
  rw [← BitVec.zero_sub, ← subBorrow_false]
  exact s.respond0_eq _

theorem returns_mul : Returns .mul s (s.X0 * s.X1) := by
  rw [← ofNat_toNat_mul_toNat]
  exact s.respond0_eq _

variable {s}

/-- A division of a nonzero divisor answers its quotient and remainder. -/
theorem Divides.answers {i : Instr} {f : {N : Nat} → BitVec N → BitVec N → BitVec N × BitVec N} (hi : Divides i f)
    (hd : s.X1 ≠ 0) : Answers i s (f s.X0 s.X1).1 (f s.X0 s.X1).2 false :=
  (hi.exec_eq s).trans (s.requireNonzero_pos hd _ _)

end Commands

/-- Quotient and remainder give the dividend back, and nothing of it is cut (R171). -/
theorem divRemU_recompose {N : Nat} (a d : BitVec N) : (divRemU a d).1 * d + (divRemU a d).2 = a := by
  rw [← BitVec.toNat_inj, BitVec.toNat_add, BitVec.toNat_mul, divRemU_quotient, divRemU_remainder, Nat.mod_add_mod,
    Nat.div_add_mod', Nat.mod_eq_of_lt a.isLt]

/-! ### The statements -/

/-- Settles O21: each command answers with the shared function's value, whose number is the rule's. -/
theorem adderAndSubtractor : Obligations.AdderAndSubtractor := by
  intro s a b c
  have hadd := returns_add s
  have hsub := returns_sub s
  have hadc := answers_adc s
  have hsbc := answers_sbc s
  have hneg := returns_neg s
  have hborrow : decide (a < b + c) = decide ((a : Int) - b - c < 0) := by rw [decide_eq_decide]; omega
  refine ⟨decode_encode (i := .add) rfl, decode_encode (i := .sub) rfl, decode_encode (i := .adc) rfl,
    decode_encode (i := .sbc) rfl, decode_encode (i := .neg) rfl, ?_, ?_, ?_, ?_, ?_, ?_⟩
  · rwa [ofNat_toNat_add_toNat]
  · rwa [ofInt_toNat_sub_toNat]
  · rwa [addCarry_carry, addCarry, carryBit_toNat] at hadc
  · rw [hborrow]
    rwa [subBorrow_borrow, subBorrow, carryBit_toNat] at hsbc
  · rwa [ofInt_neg_toNat]
  · rwa [BitVec.neg_eq_not_add] at hneg

/-- Settles O29: the laws of the bits the commands answer with. -/
theorem arithmeticLawsByCommands : Obligations.ArithmeticLawsByCommands := by
  intro s a b alg
  refine ⟨⟨a + b, returns_add _, ?_⟩, fun hb => ?_⟩
  · have hsub : Returns .sub (s.present (a + b) b 0 0) (a + b - b) := returns_sub _
    rwa [BitVec.add_sub_cancel] at hsub
  · refine ⟨_, _, _, (divides_divremu alg).answers hb, returns_mul _, ?_⟩
    have hadd : Returns .add (s.present ((divRemU a b).1 * b) (divRemU a b).2 0 0)
        ((divRemU a b).1 * b + (divRemU a b).2) := returns_add _
    rwa [divRemU_recompose] at hadd

/-- Settles O47, by induction on the width: the ripple through two halves is the whole width's addition or subtraction. -/
theorem adderTreeComputesAdcAndSbc : Obligations.AdderTreeComputesAdcAndSbc := by
  intro s
  rw [adcTree_eq, sbcTree_eq]
  exact ⟨answers_adc s, answers_sbc s⟩

end Sys2Proof.Machine

/-! ## Multiplier: the commands' halves of the product, and the tree that computes them (42_multiplier.md) -/

namespace Sys2Proof.Machine

/-! ### The halves of a product (42_multiplier.md R150) -/

/-- The four products of the digits of two numbers in base `H`, at their places. -/
theorem mul_eq_digits (H a b : Nat) :
    a * b = a % H * (b % H) + (a / H * (b % H) + b / H * (a % H)) * H + a / H * (b / H) * (H * H) := by
  calc a * b = (a / H * H + a % H) * (b / H * H + b % H) := by rw [Nat.div_add_mod', Nat.div_add_mod']
    _ = _ := by ring

/-- The upper half of a value of `width (j + 1)` bits fits the lower width. -/
theorem div_two_pow_width_lt {j a : Nat} (ha : a < 2 ^ width (j + 1)) : a / 2 ^ width j < 2 ^ width j :=
  Nat.div_lt_of_lt_mul (two_pow_width_succ j ▸ ha)

section FullProduct

variable {N : Nat} (a b : BitVec N)

theorem lowHalf_fullProduct : lowHalf (fullProduct a b) = BitVec.ofNat N (a.toNat * b.toNat % 2 ^ N) := by
  rw [← fullProduct_toNat, ← lowHalf_toNat, BitVec.ofNat_toNat, BitVec.setWidth_eq]

theorem highHalf_fullProduct : highHalf (fullProduct a b) = BitVec.ofNat N (a.toNat * b.toNat / 2 ^ N) := by
  rw [← fullProduct_toNat, ← highHalf_toNat, BitVec.ofNat_toNat, BitVec.setWidth_eq]

/-- The two halves together are the product, nothing of it cut (R152). -/
theorem fullProduct_halves_toNat :
    (highHalf (fullProduct a b)).toNat * 2 ^ N + (lowHalf (fullProduct a b)).toNat = a.toNat * b.toNat := by
  rw [highHalf_toNat, lowHalf_toNat, fullProduct_toNat, Nat.div_add_mod']

end FullProduct

theorem answers_mulw (s : State) :
    Answers .mulw s (lowHalf (fullProduct s.X0 s.X1)) (highHalf (fullProduct s.X0 s.X1)) false :=
  s.respondPair_eq _

/-! ### Schoolbook, Karatsuba and the tree over the widths (42_multiplier.md R150) -/

/-- The lowest `n` words of a value, each at its place, sum to its remainder. -/
theorem sum_wordAt (v n : Nat) :
    ((List.range n).map fun i => wordAt v i * 2 ^ (64 * i)).sum = v % 2 ^ (64 * n) := by
  induction n with
  | zero => rw [mul_zero, pow_zero, Nat.mod_one]; rfl
  | succ n ih =>
    rw [List.range_succ, List.map_append, List.sum_append, ih, List.map_singleton, List.sum_singleton, Nat.mul_succ,
      pow_add, Nat.mod_mul, wordAt, mul_comm (2 ^ (64 * n))]

/-- The word products sum to the product of the two sums of words. -/
theorem schoolbook_eq (n a b : Nat) : schoolbook n a b = a % 2 ^ (64 * n) * (b % 2 ^ (64 * n)) := by
  have hplace (p q : Nat) : wordAt a p * wordAt b q * 2 ^ (64 * (p + q)) =
      wordAt a p * 2 ^ (64 * p) * (wordAt b q * 2 ^ (64 * q)) := by ring
  simp only [schoolbook, hplace, List.sum_map_mul_left, List.sum_map_mul_right, sum_wordAt]

/-- Karatsuba's identity: the product of the sums of the halves, less the two outer products, is the cross products. -/
theorem cross_products (ah al bh bl : Nat) :
    (ah + al) * (bh + bl) - al * bl - ah * bh = ah * bl + bh * al := by
  rw [Nat.sub_sub]
  exact Nat.sub_eq_of_eq_add (by ring)

/-- Karatsuba's combination of an exact half-width product is exact: with its carries, the middle product is that of the
sums of the halves. -/
theorem karatsuba_eq {h a b : Nat} {mulH : Nat → Nat → Nat}
    (hmul : ∀ x y, x < 2 ^ h → y < 2 ^ h → mulH x y = x * y)
    (ha : a / 2 ^ h < 2 ^ h) (hb : b / 2 ^ h < 2 ^ h) : karatsuba h mulH a b = a * b := by
  have hmod (x : Nat) : x % 2 ^ h < 2 ^ h := Nat.mod_lt _ (Nat.two_pow_pos h)
  simp only [karatsuba, hmul _ _ (hmod _) (hmod _), hmul _ _ ha hb, two_mul h, pow_add 2 h h]
  rw [← mul_eq_digits, cross_products, mul_eq_digits (2 ^ h) a b]
  ring

/-- The square of the all-ones value (R150's fast path). -/
theorem allOnes_mul_self {P : Nat} (hP : 2 ≤ P) : (P - 2) * P + 1 = (P - 1) * (P - 1) := by
  obtain ⟨k, rfl⟩ := Nat.exists_eq_add_of_le' hP
  rw [Nat.add_sub_cancel, show k + 2 - 1 = k + 1 from rfl]
  ring

theorem mulTree_eq (large : Nat → Bool) (j : Nat) {a b : Nat} (ha : a < 2 ^ width j) (hb : b < 2 ^ width j) :
    mulTree large j a b = a * b := by
  induction j generalizing a b with
  | zero => rfl
  | succ j ih =>
    rw [mulTree]
    split_ifs with hzero hones hlarge
    · exact (mul_eq_zero.2 hzero).symm
    · obtain ⟨rfl, rfl⟩ := hones
      exact allOnes_mul_self (Nat.le_self_pow (width_pos (j + 1)).ne' 2)
    · exact karatsuba_eq (fun _ _ => ih) (div_two_pow_width_lt ha) (div_two_pow_width_lt hb)
    · have hwords : 64 * (width (j + 1) / 64) = width (j + 1) := Nat.mul_div_cancel' (by
        rw [width_eq]; exact pow_dvd_pow 2 (Nat.le_add_right 6 _))
      rw [schoolbook_eq, hwords, Nat.mod_eq_of_lt ha, Nat.mod_eq_of_lt hb]

/-- The product of the upper halves, left out, is beyond the width. -/
theorem mulTruncTree_eq (large : Nat → Bool) (j : Nat) {a b : Nat} (ha : a < 2 ^ width (j + 1))
    (hb : b < 2 ^ width (j + 1)) : mulTruncTree large j a b = a * b % 2 ^ width (j + 1) := by
  have hmod (x : Nat) : x % 2 ^ width j < 2 ^ width j := Nat.mod_lt _ (Nat.two_pow_pos _)
  simp only [mulTruncTree, mulTree_eq large j (hmod _) (hmod _), mulTree_eq large j (div_two_pow_width_lt ha) (hmod _),
    mulTree_eq large j (hmod _) (div_two_pow_width_lt hb)]
  rw [mul_eq_digits (2 ^ width j) a b, two_pow_width_succ, Nat.add_mul_mod_self_right, mul_comm (b / _)]

/-! ### The statements -/

/-- Settles O22: the exact commands answer with halves of the full product, MULHIA with its parameter. -/
theorem multiplier : Obligations.Multiplier := by
  intro s p
  have hmulw := answers_mulw s
  rw [lowHalf_fullProduct, highHalf_fullProduct] at hmulw
  refine ⟨decode_encode (i := .mul) rfl, decode_encode (i := .mulw) rfl, decode_encode (i := .mulhi) rfl,
    decode_encode (i := .mulhia) rfl, ?_, hmulw, s.respond0_eq _, ?_, s.respond0_eq _⟩
  · have hmul := returns_mul s
    rwa [← BitVec.setWidth_eq (s.X0 * s.X1), ← BitVec.ofNat_toNat, BitVec.toNat_mul] at hmul
  · exact Nat.div_lt_of_lt_mul (Nat.mul_lt_mul'' s.X0.isLt s.X1.isLt)

/-- Settles O48, by induction on the width: each algorithm is exact when the half-width product is. -/
theorem multiplierTreeIsExact : Obligations.MultiplierTreeIsExact := by
  intro large s
  refine ⟨⟨_, _, answers_mulw s, ?_⟩, fun j hj => ⟨_, returns_mul s, ?_⟩⟩
  · rw [mulTree_eq large s.j s.X0.isLt s.X1.isLt, fullProduct_halves_toNat]
  · have hW : s.W = width (j + 1) := congrArg width hj
    rw [BitVec.toNat_mul, mulTruncTree_eq large j (hW ▸ s.X0.isLt) (hW ▸ s.X1.isLt), ← hW]

end Sys2Proof.Machine

/-! ## Divider: the commands' quotients and remainders, and the algorithms that compute them (43_divider.md) -/

namespace Sys2Proof.Machine

/-! ### What the commands answer (43_divider.md R170, R173) -/

section Commands

variable {s : State}

/-- A division by zero faults, with the divisor's slot. -/
theorem Divides.faults {i : Instr} {f : {N : Nat} → BitVec N → BitVec N → BitVec N × BitVec N} (hi : Divides i f)
    (hd : s.X1 = 0) : Faults i s (.divideByZero s.cmd.word .x1) :=
  (hi.exec_eq s).trans (s.requireNonzero_zero hd _ _)

/-- A wide division below the overflow bound answers its quotient and remainder. -/
theorem answers_divw (h : s.X0.toNat < s.X2.toNat) :
    Answers .divw s (divWide s.X0 s.X1 s.X2).1 (divWide s.X0 s.X1 s.X2).2 false := by
  have hd : s.X2 ≠ 0 := mt (eq_zero_iff_toNat s.X2).1 (by omega)
  exact (s.requireNonzero_pos hd _ _).trans (s.requireBelow_below h _)

end Commands

/-- The halves of a two-slot value give the value back (00_scope.md R14). -/
theorem highHalf_append_lowHalf {N : Nat} (v : BitVec (N + N)) : highHalf v ++ lowHalf v = v := by
  rw [highHalf, lowHalf, BitVec.extractLsb'_append_extractLsb'_eq_extractLsb' (Nat.zero_add N).symm,
    BitVec.extractLsb'_eq_self]

/-! ### Signed division as the library's operations (43_divider.md R172) -/

section Signed

variable {N : Nat} (a d v : BitVec N)

theorem divRemU_eq : divRemU a d = (a.udiv d, a % d) :=
  Prod.ext (BitVec.eq_of_toNat_eq (divRemU_quotient a d)) (BitVec.eq_of_toNat_eq (divRemU_remainder a d))

theorem divRemS_eq : divRemS a d = (a.sdiv d, a.srem d) := by
  refine Prod.ext (BitVec.eq_of_toInt_eq ?_) ?_
  · rw [divRemS, BitVec.toInt_ofInt, BitVec.toInt_sdiv]
  · rw [divRemS, ← BitVec.toInt_srem, BitVec.ofInt_toInt]

theorem negateIf_eq (b : Bool) : negateIf b v = if b then -v else v := by
  rw [negateIf, subBorrow_false, zero_sub]

theorem absBits_eq : absBits v = if v.msb then -v else v := negateIf_eq v v.msb

/-- Dividing absolute values and reattaching the signs is signed division, in each of the four cases of the signs. -/
theorem divRemByAbs_eq : divRemByAbs a d = divRemS a d := by
  rw [divRemS_eq, BitVec.sdiv_eq, BitVec.srem_eq, divRemByAbs]
  simp only [divRemU_eq, negateIf_eq, absBits_eq]
  cases a.msb <;> cases d.msb <;> rfl

/-- Every value is a multiple of -1. -/
theorem srem_neg_one (hd : d.toInt = -1) : a.srem d = 0 := by
  refine BitVec.srem_zero_of_dvd ?_
  rw [hd]
  exact Int.neg_dvd.2 (one_dvd _)

variable {v} (hN : 0 < N)

include hN

theorem toInt_eq_intMin_iff : v.toInt = -2 ^ (N - 1) ↔ v = BitVec.intMin N := by
  rw [← BitVec.toInt_inj, BitVec.toInt_intMin_of_pos hN]

theorem toInt_eq_neg_one_iff : v.toInt = -1 ↔ v = -1#N := by
  rw [← BitVec.toInt_inj, BitVec.neg_one_eq_allOnes, BitVec.toInt_allOnes, if_pos hN]

end Signed

theorem abs_tmod_lt {x d : Int} (hd : d ≠ 0) : |x.tmod d| < |d| := by
  rw [Int.abs_eq_natAbs, Int.abs_eq_natAbs, Int.natAbs_tmod]
  exact Int.ofNat_lt.2 (Nat.mod_lt _ (Int.natAbs_pos.2 hd))

theorem tmod_eq_zero_or_neg_iff (x d : Int) : x.tmod d = 0 ∨ (x.tmod d < 0 ↔ x < 0) := by
  by_cases h : d ∣ x
  · exact .inl (Int.tmod_eq_zero_of_dvd h)
  · refine .inr ?_
    rw [← Int.sign_eq_neg_one_iff_neg, Int.sign_tmod, if_neg h, Int.sign_eq_neg_one_iff_neg]

/-! ### The quotient found by comparing products (43_divider.md R176, R177) -/

section Quotient

variable {a d q : Nat}

/-- The exact quotient's remainder, as the algorithms compute it. -/
theorem quotient_remainder (hq : q = a / d) : (q, a - q * d) = (a / d, a % d) := by
  rw [hq, Nat.mod_eq_sub_div_mul]

variable (hd : 0 < d)

include hd

/-- One comparison with the product and one with the divisor tell the three candidates apart. -/
theorem correctQuotient_eq (hhi : q ≤ a / d + 1) (hlo : a / d ≤ q + 1) : correctQuotient a d q = (a / d, a % d) := by
  rw [correctQuotient]
  split_ifs with hhigh hlow
  · have : a / d < q := (Nat.div_lt_iff_lt_mul hd).2 hhigh
    exact quotient_remainder (Nat.sub_eq_of_eq_add (by omega))
  · have : q + 1 ≤ a / d := (Nat.le_div_iff_mul_le hd).2 (by rw [Nat.succ_mul]; omega)
    exact quotient_remainder (by omega)
  · have : q ≤ a / d := (Nat.le_div_iff_mul_le hd).2 (by omega)
    have : a / d < q + 1 := (Nat.div_lt_iff_lt_mul hd).2 (by rw [Nat.succ_mul]; omega)
    exact quotient_remainder (by omega)

/-- Trial products lower an estimate that is at most 2 too high to the quotient. -/
theorem lowerEstimate_eq (hlo : a / d ≤ q) (hhi : q ≤ a / d + 2) : lowerEstimate a d q = a / d := by
  simp only [lowerEstimate, ← Nat.le_div_iff_mul_le hd]
  generalize a / d = k at *
  split_ifs <;> omega

end Quotient

/-! ### Knuth's Algorithm D (43_divider.md R177) -/

section Digit

variable {B r next d e : Nat}

/-- No digit exceeds what the top digits of remainder and divisor allow. -/
theorem digit_mul_top_le (hnext : next < B) : (r * B + next) / d * (d / B) ≤ r := by
  have hB : 0 < B := by omega
  refine Nat.le_of_lt_succ ((Nat.mul_lt_mul_right hB).1 ?_)
  calc (r * B + next) / d * (d / B) * B = (r * B + next) / d * (d / B * B) := mul_assoc _ _ _
    _ ≤ (r * B + next) / d * d := Nat.mul_le_mul_left _ (Nat.div_mul_le_self d B)
    _ ≤ r * B + next := Nat.div_mul_le_self _ d
    _ < (r + 1) * B := by rw [Nat.succ_mul]; omega

/-- A digit that the top digits allow is at most 2 too high: the divisor is normalised, so what its low digit adds is
below twice the divisor. -/
theorem estimate_le_digit_add_two (hB : 0 < B) (hnorm : B * B ≤ 2 * d) (he : e ≤ B) (htop : e * (d / B) ≤ r) :
    e ≤ (r * B + next) / d + 2 := by
  have hd : 0 < d := by nlinarith
  have hlow : d % B ≤ B := (Nat.mod_lt d hB).le
  have hprod : e * d ≤ r * B + 2 * d :=
    calc e * d = e * (d / B) * B + e * (d % B) := by
          rw [mul_assoc, ← mul_add, Nat.div_add_mod']
      _ ≤ r * B + B * B := by gcongr
      _ ≤ r * B + 2 * d := by omega
  rw [← Nat.add_mul_div_right _ _ hd]
  exact (Nat.le_div_iff_mul_le hd).2 (by omega)

end Digit

/-- Long division: the quotient by the upper digits leaves its remainder to the next one. -/
theorem nextDigit_eq {B m x d : Nat} (hd : 0 < d) :
    (m / d * B + (m % d * B + x) / d, (m % d * B + x) % d) = ((m * B + x) / d, (m * B + x) % d) := by
  have hsplit : m * B + x = m % d * B + x + d * (m / d * B) := by
    conv_lhs => rw [← Nat.div_add_mod m d]
    ring
  rw [hsplit, Nat.add_mul_div_left _ _ hd, Nat.add_mul_mod_self_left, add_comm]

section NormalisedDivisor

variable {h r next n d : Nat} {divH : Nat → Nat → Nat → Nat × Nat}
  (hdiv : ∀ {nh nl t}, nh < t → nl < 2 ^ h → t < 2 ^ h →
    divH nh nl t = ((nh * 2 ^ h + nl) / t, (nh * 2 ^ h + nl) % t))
  (hd : d < 2 ^ h * 2 ^ h) (hnorm : 2 ^ h * 2 ^ h ≤ 2 * d)

include hdiv hd hnorm

/-- One digit is exact when the half-width division is, for a remainder below the divisor. -/
theorem knuthDigit_eq (hr : r < d) (hnext : next < 2 ^ h) :
    knuthDigit h divH r next d = ((r * 2 ^ h + next) / d, (r * 2 ^ h + next) % d) := by
  have hB : 0 < 2 ^ h := Nat.two_pow_pos h
  have hpos : 0 < d := by omega
  have hdigit : (r * 2 ^ h + next) / d < 2 ^ h := wideQuotient_lt hr hnext
  simp only [knuthDigit]
  refine quotient_remainder ?_
  split_ifs with htop
  · have hmax : (2 ^ h - 1) * (d / 2 ^ h) ≤ r :=
      calc (2 ^ h - 1) * (d / 2 ^ h) ≤ 2 ^ h * (r / 2 ^ h) := Nat.mul_le_mul (Nat.sub_le _ _) htop
        _ ≤ r := Nat.mul_div_le r _
    exact lowerEstimate_eq hpos (Nat.le_sub_one_of_lt hdigit)
      (estimate_le_digit_add_two hB hnorm (Nat.sub_le _ _) hmax)
  · have htop : r / 2 ^ h < d / 2 ^ h := Nat.lt_of_not_le htop
    have hlow : r % 2 ^ h < 2 ^ h := Nat.mod_lt r hB
    have hestimate : r / (d / 2 ^ h) < 2 ^ h := by
      have := wideQuotient_lt htop hlow
      rwa [Nat.div_add_mod'] at this
    rw [hdiv htop hlow (Nat.div_lt_of_lt_mul hd), Nat.div_add_mod']
    exact lowerEstimate_eq hpos ((Nat.le_div_iff_mul_le (Nat.zero_lt_of_lt htop)).2 (digit_mul_top_le hnext))
      (estimate_le_digit_add_two hB hnorm hestimate.le (Nat.div_mul_le_self _ _))

/-- Two digits, the second on the remainder of the first, are the whole quotient. -/
theorem knuthDigit_twice (hn : n < 2 ^ h * 2 ^ h * d) :
    let hi := knuthDigit h divH (n / (2 ^ h * 2 ^ h)) (n / 2 ^ h % 2 ^ h) d
    let lo := knuthDigit h divH hi.2 (n % 2 ^ h) d
    (hi.1 * 2 ^ h + lo.1, lo.2) = (n / d, n % d) := by
  intro hi lo
  have hB : 0 < 2 ^ h := Nat.two_pow_pos h
  have hpos : 0 < d := Nat.pos_of_lt_mul_left hn
  have hhi : hi = (n / 2 ^ h / d, n / 2 ^ h % d) := by
    refine (knuthDigit_eq hdiv hd hnorm (Nat.div_lt_of_lt_mul hn) (Nat.mod_lt _ hB)).trans ?_
    rw [← Nat.div_div_eq_div_mul, Nat.div_add_mod']
  have hlo : lo = _ := knuthDigit_eq hdiv hd hnorm (hhi ▸ Nat.mod_lt _ hpos) (Nat.mod_lt _ hB)
  rw [hlo, hhi, nextDigit_eq hpos, Nat.div_add_mod']

end NormalisedDivisor

/-- Normalising sets the divisor's top bit and keeps it within the width. -/
theorem normalised_bounds {W d : Nat} (hpos : 0 < d) (hd : d < 2 ^ W) :
    2 ^ W ≤ 2 * (d * 2 ^ (W - 1 - d.log2)) ∧ d * 2 ^ (W - 1 - d.log2) < 2 ^ W := by
  have hlog : d.log2 < W := (Nat.log2_lt hpos.ne').2 hd
  have hlo : 2 ^ d.log2 ≤ d := Nat.log2_self_le hpos.ne'
  have hhi : d < 2 ^ (d.log2 + 1) := Nat.lt_log2_self
  constructor
  · calc 2 ^ W = 2 * (2 ^ d.log2 * 2 ^ (W - 1 - d.log2)) := by
          rw [← pow_add, ← pow_succ']; congr 1; omega
      _ ≤ _ := by gcongr
  · calc d * 2 ^ (W - 1 - d.log2) < 2 ^ (d.log2 + 1) * 2 ^ (W - 1 - d.log2) := by gcongr
      _ = 2 ^ W := by rw [← pow_add]; congr 1; omega

/-- Algorithm D at every width, by induction: normalising scales numerator and divisor alike, and denormalising takes the
factor out of the remainder. -/
theorem knuthDiv_eq (j : Nat) {nh nl d : Nat} (hnh : nh < d) (hnl : nl < 2 ^ width j) (hd : d < 2 ^ width j) :
    knuthDiv j nh nl d = ((nh * 2 ^ width j + nl) / d, (nh * 2 ^ width j + nl) % d) := by
  induction j generalizing nh nl d with
  | zero => rfl
  | succ j ih =>
    have hpos : 0 < d := by omega
    obtain ⟨hnorm, hfits⟩ := normalised_bounds hpos hd
    have hN := Nat.lt_mul_of_div_lt (wideQuotient_lt hnh hnl) hpos
    simp only [knuthDiv]
    generalize width (j + 1) - 1 - d.log2 = norm at *
    have hP : 0 < 2 ^ norm := Nat.two_pow_pos norm
    rw [two_pow_width_succ] at *
    generalize nh * (2 ^ width j * 2 ^ width j) + nl = N at *
    have hn : N * 2 ^ norm < 2 ^ width j * 2 ^ width j * (d * 2 ^ norm) := by
      rw [← mul_assoc]
      exact Nat.mul_lt_mul_of_pos_right (mul_comm d _ ▸ hN) hP
    obtain ⟨hquot, hrem⟩ := Prod.mk.inj (knuthDigit_twice ih hfits hnorm hn)
    rw [hquot, hrem, Nat.mul_div_mul_right _ _ hP, Nat.mul_mod_mul_right, Nat.mul_div_cancel _ hP]

/-! ### The statements -/

/-- Settles O23: quotient and remainder fit their slots, so the bits are the numbers. -/
theorem unsignedDivision : Obligations.UnsignedDivision := by
  intro s alg
  refine ⟨decode_encode (i := .divremu .reciprocal) rfl, decode_encode (i := .divremu .exact) rfl, fun hd => ?_,
    fun hd => ⟨_, _, (divides_divremu alg).answers (mt (eq_zero_iff_toNat s.X1).1 hd), divRemU_quotient _ _,
      divRemU_remainder _ _, ?_, ?_⟩⟩
  · exact (divides_divremu alg).faults ((eq_zero_iff_toNat s.X1).2 hd)
  · rw [divRemU_quotient, divRemU_remainder, Nat.div_add_mod']
  · rw [divRemU_remainder]
    exact Nat.mod_lt _ (Nat.pos_of_ne_zero hd)

/-- Settles O24: truncation toward zero is what the command computes, and dividing absolute values is the same. -/
theorem signedDivision : Obligations.SignedDivision := by
  intro s alg
  refine ⟨decode_encode (i := .divrems .reciprocal) rfl, decode_encode (i := .divrems .exact) rfl, fun hd => ?_,
    fun hd => ?_⟩
  · exact (divides_divrems alg).faults ((toInt_eq_zero_iff s.X1).1 hd)
  · have hanswer := (divides_divrems alg).answers (mt (toInt_eq_zero_iff s.X1).2 hd)
    rw [divRemByAbs_eq]
    exact ⟨hanswer, hanswer⟩

/-- Settles O25: the remainder always fits; the quotient does but for the most negative value by -1. -/
theorem signedDivisionProperty : Obligations.SignedDivisionProperty := by
  intro s alg hd
  have hanswer := (divides_divrems alg).answers (mt (toInt_eq_zero_iff s.X1).2 hd)
  have hW : 0 < s.W := width_pos s.j
  rw [divRemS_eq] at hanswer
  have hmin : s.X0.toInt = -2 ^ (s.W - 1) ↔ _ := toInt_eq_intMin_iff hW
  have hone : s.X1.toInt = -1 ↔ _ := toInt_eq_neg_one_iff hW
  refine ⟨_, _, hanswer, ?_, ?_, fun ⟨hX0, hX1⟩ => ⟨?_, srem_neg_one _ _ hX1⟩, fun hwrap => ?_⟩
  · rw [BitVec.toInt_srem]
    exact abs_tmod_lt hd
  · rw [BitVec.toInt_srem]
    exact tmod_eq_zero_or_neg_iff _ _
  · rw [hmin.1 hX0, hone.1 hX1]
    exact BitVec.intMin_sdiv_neg_one
  · rw [hmin, hone] at hwrap
    rw [BitVec.toInt_srem, BitVec.toInt_sdiv_of_ne_or_ne _ _ (not_and_or.1 hwrap), Int.tdiv_mul_add_tmod]

/-- Settles O26: the two checks in their order; below the overflow bound the quotient fits one slot. -/
theorem wideDivision : Obligations.WideDivision := by
  intro s n d
  have hzero : s.X2 = 0 ↔ d = 0 := eq_zero_iff_toNat s.X2
  refine ⟨decode_encode (i := .divw) rfl, fun hd => s.requireNonzero_zero (hzero.2 hd) _ _, fun hd hle => ?_,
    fun hlt => ⟨?_, wideQuotient_lt hlt s.X1.isLt⟩⟩
  · exact (s.requireNonzero_pos (mt hzero.1 hd) _ _).trans (s.requireBelow_above hle _)
  · have hanswer := answers_divw hlt
    rwa [divWide, uintPair_eq] at hanswer

/-- Settles O27: the two slots are the halves of the parameter's value. -/
theorem reciprocalInTwoSlots : Obligations.ReciprocalInTwoSlots := by
  intro s
  refine ⟨decode_encode (i := .recip) rfl, fun hd => ?_, fun hd => ⟨_, _, ?_, highHalf_append_lowHalf _⟩⟩
  · exact s.requireNonzero_zero ((eq_zero_iff_toNat s.X0).2 hd) _ _
  · exact (s.requireNonzero_pos (mt (eq_zero_iff_toNat s.X0).1 hd) _ _).trans (s.respondPair_eq _)

/-- Settles O28: after the zero check, the comparison with the divisor's own reciprocal decides. -/
theorem divisionByReciprocal : Obligations.DivisionByReciprocal := by
  intro s
  have hzero : s.X1 = 0 ↔ s.X1.toNat = 0 := eq_zero_iff_toNat s.X1
  refine ⟨decode_encode (i := .divr) rfl, fun hd => s.requireNonzero_zero (hzero.2 hd) _ _, fun hd hown => ?_,
    fun hd hother => ?_⟩
  · exact (s.requireNonzero_pos (mt hzero.1 hd) _ _).trans ((if_pos hown).trans (s.respond_eq _ _ _))
  · exact (s.requireNonzero_pos (mt hzero.1 hd) _ _).trans ((if_neg hother).trans s.respondDraws_eq)

/-- Settles O51, by induction on the width: each half-width digit is exact. -/
theorem knuthDivisionIsExact : Obligations.KnuthDivisionIsExact := by
  intro s h
  refine ⟨_, _, answers_divw h, ?_⟩
  rw [knuthDiv_eq s.j h s.X1.isLt s.X2.isLt, divWide_quotient_toNat h, divWide_remainder_toNat (Nat.zero_lt_of_lt h)]

/-- Settles O52: the single correction tells a candidate too high, exact and too low apart. -/
theorem singleCorrectionIsExact : Obligations.SingleCorrectionIsExact := by
  intro s alg candidate hd hhi hlo
  refine ⟨_, _, (divides_divremu alg).answers (mt (eq_zero_iff_toNat s.X1).1 hd), ?_⟩
  rw [correctQuotient_eq (Nat.pos_of_ne_zero hd) hhi hlo, divRemU_quotient, divRemU_remainder]

end Sys2Proof.Machine

/-! ## Bitwise operations, shifts and leading zeros: what the commands return, and the halves that compute it
(44_bitwise_shift_clz.md) -/

namespace Sys2Proof.Machine

/-! ### What the commands return (44_bitwise_shift_clz.md R200 to R208) -/

section Commands

variable (s : State)

theorem returns_bitAnd : Returns .bitAnd s (s.X0 &&& s.X1) := s.respond0_eq _

theorem returns_bitOr : Returns .bitOr s (s.X0 ||| s.X1) := s.respond0_eq _

theorem returns_bitXor : Returns .bitXor s (s.X0 ^^^ s.X1) := s.respond0_eq _

theorem returns_bitNot : Returns .bitNot s (~~~ s.X0) := s.respond0_eq _

theorem returns_shl : Returns .shl s (shiftLeft s.X0 s.X1.toNat) := s.respond0_eq _

theorem returns_shr : Returns .shr s (shiftRight s.X0 s.X1.toNat) := s.respond0_eq _

theorem returns_sar : Returns .sar s (shiftRightArith s.X0 s.X1.toNat) := s.respond0_eq _

theorem returns_clz : Returns .clz s (BitVec.ofNat s.W (leadingZeros s.X0)) := s.respond0_eq _

end Commands

/-! ### The shifts as numbers (44_bitwise_shift_clz.md R204 to R207) -/

section Numbers

variable {N : Nat} (v : BitVec N) (sh : Nat)

theorem shiftLeft_toNat : (shiftLeft v sh).toNat = if N ≤ sh then 0 else v.toNat * 2 ^ sh % 2 ^ N := by
  rw [shiftLeft]
  split
  · exact BitVec.toNat_zero
  · exact BitVec.toNat_ofNat _ _

theorem shiftRight_toNat : (shiftRight v sh).toNat = if N ≤ sh then 0 else v.toNat / 2 ^ sh := by
  rw [shiftRight]
  split
  · exact BitVec.toNat_zero
  · rw [BitVec.toNat_ofNat, Nat.mod_eq_of_lt ((Nat.div_le_self _ _).trans_lt v.isLt)]

/-- The arithmetic shift is the floor of the quotient at every amount, those of at least the width among them. -/
theorem shiftRightArith_toInt : (shiftRightArith v sh).toInt = v.toInt / 2 ^ sh := by
  rw [shiftRightArith_eq, BitVec.toInt_sshiftRight, Int.shiftRight_eq_div_pow]
  norm_cast

variable {v sh}

/-- From the width on the divisor exceeds the value, so the floor tells the sign alone. -/
theorem toInt_div_two_pow_of_width_le (h : N ≤ sh) : v.toInt / 2 ^ sh = if v.toInt < 0 then -1 else 0 := by
  have hpow : (2 : Int) ^ N ≤ 2 ^ sh := pow_le_pow_right₀ (by norm_num) h
  have hlo : -2 ^ N ≤ 2 * v.toInt := BitVec.le_two_mul_toInt
  have hhi : 2 * v.toInt < 2 ^ N := BitVec.two_mul_toInt_lt
  split
  · exact Int.ediv_eq_neg_one_of_neg_of_le (by omega) (by omega)
  · exact Int.ediv_eq_zero_of_lt (by omega) (by omega)

end Numbers

/-! ### A value from the bits of its halves (44_bitwise_shift_clz.md R209) -/

section Halves

variable {j : Nat} {v : BitVec (width (j + 1))} {h l : BitVec (width j)}

theorem ofParts_eq_of_bits (hhi : ∀ i < width j, h.getLsbD i = v.getLsbD (width j + i))
    (hlo : ∀ i < width j, l.getLsbD i = v.getLsbD i) : ofParts h l = v := by
  apply BitVec.eq_of_getLsbD_eq
  intro i hi
  have hi' : i < width j + width j := hi
  rw [ofParts_getLsbD]
  split
  case isTrue hlt => exact hlo i hlt
  case isFalse hge => rw [hhi _ (by omega), Nat.add_sub_of_le (by omega)]

theorem hiPart_getLsbD_of_lt {i : Nat} (hi : i < width j) : (hiPart v).getLsbD i = v.getLsbD (width j + i) := by
  rw [hiPart_getLsbD, decide_eq_true hi, Bool.true_and]

theorem loPart_getLsbD_of_lt {i : Nat} (hi : i < width j) : (loPart v).getLsbD i = v.getLsbD i := by
  rw [loPart_getLsbD, decide_eq_true hi, Bool.true_and]

end Halves

/-! ### Operations that act on each bit alone (44_bitwise_shift_clz.md R200 to R203, R209) -/

/-- At every width, each bit of `op a b` is `bit` of the operands' bits at its place. -/
def ActsPerBit (op : {N : Nat} → BitVec N → BitVec N → BitVec N) (bit : Bool → Bool → Bool) : Prop :=
  ∀ (N : Nat) (a b : BitVec N), ∀ i < N, (op a b).getLsbD i = bit (a.getLsbD i) (b.getLsbD i)

theorem actsPerBit_and : ActsPerBit (· &&& ·) (· && ·) := fun _ _ _ _ _ => BitVec.getLsbD_and

theorem actsPerBit_or : ActsPerBit (· ||| ·) (· || ·) := fun _ _ _ _ _ => BitVec.getLsbD_or

theorem actsPerBit_xor : ActsPerBit (· ^^^ ·) (· != ·) := fun _ _ _ _ _ => BitVec.getLsbD_xor

theorem actsPerBit_not : ActsPerBit (fun a _ => ~~~ a) (fun x _ => !x) := fun _ _ _ i hi => by
  rw [BitVec.getLsbD_not, decide_eq_true hi, Bool.true_and]

section PerBit

variable {op : {N : Nat} → BitVec N → BitVec N → BitVec N} {bit : Bool → Bool → Bool}

/-- What acts on each bit alone acts on each half alone. -/
theorem ActsPerBit.halves (hop : ActsPerBit op bit) {j : Nat} (a b : BitVec (width (j + 1))) :
    ofParts (op (hiPart a) (hiPart b)) (op (loPart a) (loPart b)) = op a b := by
  refine ofParts_eq_of_bits (fun i hi => ?_) (fun i hi => ?_)
  · rw [hop _ _ _ i hi, hop _ a b _ (Nat.add_lt_add_left hi _), hiPart_getLsbD_of_lt hi, hiPart_getLsbD_of_lt hi]
  · rw [hop _ _ _ i hi, hop _ a b i (Nat.lt_add_left _ hi), loPart_getLsbD_of_lt hi, loPart_getLsbD_of_lt hi]

theorem bitwiseTree_eq (hop : ActsPerBit op bit) (j : Nat) (a b : BitVec (width j)) :
    bitwiseTree op j a b = op a b := by
  induction j with
  | zero => rfl
  | succ j ih => rw [bitwiseTree, ih, ih, hop.halves]

end PerBit

/-! ### A shift from the halves of its value (44_bitwise_shift_clz.md R209) -/

section Shifts

variable {j i sh : Nat} (v : BitVec (width (j + 1)))

/-- The low half of a right shift below the half width: its own bits, and above them those out of the high half. -/
theorem shiftRight_or_shiftLeft_getLsbD (hsh : sh < width j) (hi : i < width j) :
    (shiftRight (loPart v) sh ||| shiftLeft (hiPart v) (width j - sh)).getLsbD i = v.getLsbD (sh + i) := by
  rw [BitVec.getLsbD_or, shiftRight_getLsbD, shiftLeft_getLsbD, loPart_getLsbD, hiPart_getLsbD]
  grind

/-- The high half of a left shift below the half width: its own bits, and under them those out of the low half. -/
theorem shiftLeft_or_shiftRight_getLsbD (hsh : sh < width j) (hi : i < width j) :
    (shiftLeft (hiPart v) sh ||| shiftRight (loPart v) (width j - sh)).getLsbD i = v.getLsbD (width j + i - sh) := by
  rw [BitVec.getLsbD_or, shiftRight_getLsbD, shiftLeft_getLsbD, loPart_getLsbD, hiPart_getLsbD]
  grind

/-- Only zeros move into the high half of a right shift. -/
theorem shiftRight_hiPart_getLsbD :
    (shiftRight (hiPart v) sh).getLsbD i = (shiftRight v sh).getLsbD (width j + i) := by
  rw [shiftRight_getLsbD, shiftRight_getLsbD, hiPart_getLsbD]
  grind [width]

/-- Only copies of the sign move into the high half of an arithmetic right shift. -/
theorem shiftRightArith_hiPart_getLsbD (hi : i < width j) :
    (shiftRightArith (hiPart v) sh).getLsbD i = (shiftRightArith v sh).getLsbD (width j + i) := by
  rw [shiftRightArith_getLsbD, shiftRightArith_getLsbD, hiPart_msb, hiPart_getLsbD]
  grind [width]

/-- Only zeros move into the low half of a left shift. -/
theorem shiftLeft_loPart_getLsbD (hi : i < width j) :
    (shiftLeft (loPart v) sh).getLsbD i = (shiftLeft v sh).getLsbD i := by
  rw [shiftLeft_getLsbD, shiftLeft_getLsbD, loPart_getLsbD]
  grind [width]

theorem shiftRight_halves_of_le (hsh : width j ≤ sh) :
    ofParts 0 (shiftRight (hiPart v) (sh - width j)) = shiftRight v sh := by
  have hfill : 0 = shiftRight (hiPart v) sh := (if_pos hsh).symm
  rw [hfill]
  refine ofParts_eq_of_bits (fun _ _ => shiftRight_hiPart_getLsbD v) (fun i hi => ?_)
  rw [shiftRight_getLsbD, shiftRight_getLsbD, hiPart_getLsbD]
  grind [width]

theorem shiftRight_halves_of_lt (hsh : sh < width j) :
    ofParts (shiftRight (hiPart v) sh) (shiftRight (loPart v) sh ||| shiftLeft (hiPart v) (width j - sh)) =
      shiftRight v sh := by
  refine ofParts_eq_of_bits (fun _ _ => shiftRight_hiPart_getLsbD v) (fun i hi => ?_)
  rw [shiftRight_or_shiftLeft_getLsbD v hsh hi, shiftRight_getLsbD]

theorem shiftLeft_halves_of_le (hsh : width j ≤ sh) :
    ofParts (shiftLeft (loPart v) (sh - width j)) 0 = shiftLeft v sh := by
  have hfill : 0 = shiftLeft (loPart v) sh := (if_pos hsh).symm
  rw [hfill]
  refine ofParts_eq_of_bits (fun i hi => ?_) (fun _ => shiftLeft_loPart_getLsbD v)
  rw [shiftLeft_getLsbD, shiftLeft_getLsbD, loPart_getLsbD]
  grind [width]

theorem shiftLeft_halves_of_lt (hsh : sh < width j) :
    ofParts (shiftLeft (hiPart v) sh ||| shiftRight (loPart v) (width j - sh)) (shiftLeft (loPart v) sh) =
      shiftLeft v sh := by
  refine ofParts_eq_of_bits (fun i hi => ?_) (fun _ => shiftLeft_loPart_getLsbD v)
  rw [shiftLeft_or_shiftRight_getLsbD v hsh hi, shiftLeft_getLsbD]
  grind [width]

theorem shiftRightArith_halves_of_le (hsh : width j ≤ sh) :
    ofParts (if v.msb then BitVec.ofInt (width j) (-1) else 0) (shiftRightArith (hiPart v) (sh - width j)) =
      shiftRightArith v sh := by
  have hfill : (if v.msb then BitVec.ofInt (width j) (-1) else 0) = shiftRightArith (hiPart v) sh := by
    rw [shiftRightArith, if_pos hsh, hiPart_msb]
  rw [hfill]
  refine ofParts_eq_of_bits (fun _ => shiftRightArith_hiPart_getLsbD v) (fun i hi => ?_)
  rw [shiftRightArith_getLsbD, shiftRightArith_getLsbD, hiPart_msb, hiPart_getLsbD]
  grind [width]

theorem shiftRightArith_halves_of_lt (hsh : sh < width j) :
    ofParts (shiftRightArith (hiPart v) sh) (shiftRight (loPart v) sh ||| shiftLeft (hiPart v) (width j - sh)) =
      shiftRightArith v sh := by
  refine ofParts_eq_of_bits (fun _ => shiftRightArith_hiPart_getLsbD v) (fun i hi => ?_)
  rw [shiftRight_or_shiftLeft_getLsbD v hsh hi, shiftRightArith_getLsbD]
  grind [width]

end Shifts

theorem shrTree_eq (j : Nat) (v : BitVec (width j)) (sh : Nat) : shrTree j v sh = shiftRight v sh := by
  induction j generalizing sh with
  | zero => rfl
  | succ j ih =>
    rw [shrTree, ih, ih, ih]
    split
    case isTrue hsh => exact shiftRight_halves_of_le v hsh
    case isFalse hsh => exact shiftRight_halves_of_lt v (Nat.lt_of_not_le hsh)

theorem shlTree_eq (j : Nat) (v : BitVec (width j)) (sh : Nat) : shlTree j v sh = shiftLeft v sh := by
  induction j generalizing sh with
  | zero => rfl
  | succ j ih =>
    rw [shlTree, ih, ih, ih]
    split
    case isTrue hsh => exact shiftLeft_halves_of_le v hsh
    case isFalse hsh => exact shiftLeft_halves_of_lt v (Nat.lt_of_not_le hsh)

theorem sarTree_eq (j : Nat) (v : BitVec (width j)) (sh : Nat) : sarTree j v sh = shiftRightArith v sh := by
  induction j generalizing sh with
  | zero => rfl
  | succ j ih =>
    rw [sarTree, ih, ih, shrTree_eq]
    split
    case isTrue hsh => exact shiftRightArith_halves_of_le v hsh
    case isFalse hsh => exact shiftRightArith_halves_of_lt v (Nat.lt_of_not_le hsh)

/-! ### Leading zeros from the halves (44_bitwise_shift_clz.md R208, R209) -/

/-- A nonzero value has a top bit, which tells its leading zeros. -/
theorem exists_topBit {N : Nat} {v : BitVec N} (hv : v ≠ 0) :
    ∃ k < N, 2 ^ k ≤ v.toNat ∧ v.toNat < 2 ^ (k + 1) ∧ leadingZeros v = N - 1 - k := by
  have hne : v.toNat ≠ 0 := mt (eq_zero_iff_toNat v).2 hv
  exact ⟨v.toNat.log2, (Nat.log2_lt hne).2 v.isLt, Nat.log2_self_le hne, Nat.lt_log2_self, if_neg hv⟩

section LeadingZeros

variable {j : Nat} {v : BitVec (width (j + 1))}

theorem leadingZeros_of_hiPart_ne_zero (hhi : hiPart v ≠ 0) : leadingZeros v = leadingZeros (hiPart v) := by
  obtain ⟨k, hk, hlo, hup, hlead⟩ := exists_topBit hhi
  have hparts := toNat_eq_parts v
  have hrest := (loPart v).isLt
  have htop : leadingZeros v = width (j + 1) - 1 - (k + width j) := by
    apply leadingZeros_of_bounds
    · rw [pow_add]
      nlinarith
    · rw [show k + width j + 1 = k + 1 + width j by ring, pow_add]
      nlinarith
  rw [htop, hlead, width]
  omega

theorem leadingZeros_of_hiPart_eq_zero (hhi : hiPart v = 0) :
    leadingZeros v = width j + leadingZeros (loPart v) := by
  have hv : v.toNat = (loPart v).toNat := by
    rw [toNat_eq_parts, hhi]
    simp
  by_cases hlo : loPart v = 0
  · have hzero : v = 0 := (eq_zero_iff_toNat v).2 (hv.trans ((eq_zero_iff_toNat _).1 hlo))
    rw [hlo, hzero, leadingZeros_zero, leadingZeros_zero, width]
  · obtain ⟨k, hk, hlow, hup, hlead⟩ := exists_topBit hlo
    rw [← hv] at hlow hup
    rw [leadingZeros_of_bounds hlow hup, hlead, width]
    omega

end LeadingZeros

theorem clzTree_eq (j : Nat) (v : BitVec (width j)) : clzTree j v = leadingZeros v := by
  induction j with
  | zero => rfl
  | succ j ih =>
    rw [clzTree, ih, ih]
    split
    case isTrue hhi => exact (leadingZeros_of_hiPart_ne_zero hhi).symm
    case isFalse hhi => exact (leadingZeros_of_hiPart_eq_zero (not_not.1 hhi)).symm

/-! ### The statements -/

/-- Settles O32: from the width on the divisor `2 ^ sh` exceeds every value, so only the sign is left of the floor. -/
theorem barrelShifter : Obligations.BarrelShifter := by
  intro s sh
  refine ⟨decode_encode (i := .shl) rfl, decode_encode (i := .shr) rfl, decode_encode (i := .sar) rfl,
    ⟨_, returns_shl s, shiftLeft_toNat _ _⟩, ⟨_, returns_shr s, shiftRight_toNat _ _⟩, _, returns_sar s, ?_⟩
  rw [shiftRightArith_toInt]
  split
  case isTrue hsh => exact toInt_div_two_pow_of_width_le hsh
  case isFalse => exact (Int.fdiv_eq_ediv_of_nonneg _ (by positivity)).symm

/-- Settles O49, by induction on the width: bits move between the two halves as they move within the whole value. -/
theorem halvesComputeBitwiseShiftsAndClz : Obligations.HalvesComputeBitwiseShiftsAndClz := by
  intro s
  rw [bitwiseTree_eq actsPerBit_and, bitwiseTree_eq actsPerBit_or, bitwiseTree_eq actsPerBit_xor,
    bitwiseTree_eq actsPerBit_not, shlTree_eq, shrTree_eq, sarTree_eq, clzTree_eq]
  exact ⟨returns_bitAnd s, returns_bitOr s, returns_bitXor s, returns_bitNot s, returns_shl s, returns_shr s,
    returns_sar s, returns_clz s⟩

/-- Settles O31: each operation acts on each bit alone. -/
theorem bitwiseOperations : Obligations.BitwiseOperations := fun s =>
  ⟨decode_encode (i := .bitAnd) rfl, decode_encode (i := .bitOr) rfl, decode_encode (i := .bitXor) rfl,
    decode_encode (i := .bitNot) rfl, ⟨_, returns_bitAnd s, actsPerBit_and _ _ _⟩,
    ⟨_, returns_bitOr s, actsPerBit_or _ _ _⟩, ⟨_, returns_bitXor s, actsPerBit_xor _ _ _⟩,
    ⟨_, returns_bitNot s, actsPerBit_not _ _ s.X1⟩⟩

end Sys2Proof.Machine

/-! ## Comparator and width conversion: what the commands return and refuse, and the compare of halves
(45_compare_convert.md) -/

namespace Sys2Proof.Machine

/-! ### What the commands return (45_compare_convert.md R230 to R233) -/

section Commands

variable (s : State)

theorem returns_cmpu : Returns .cmpu s (orderBits s.W (compareU s.X0 s.X1)) := s.respond0_eq _

theorem returns_cmps : Returns .cmps s (orderBits s.W (compareS s.X0 s.X1)) := s.respond0_eq _

theorem returns_extz (m : BitVec 4) : Returns (.extz m) s (zeroExtendFrom (sourceWidth m) s.X0) := s.respond0_eq _

theorem returns_exts (m : BitVec 4) : Returns (.exts m) s (signExtendFrom (sourceWidth m) s.X0) := s.respond0_eq _

end Commands

/-! ### The comparator's outputs as numbers (45_compare_convert.md R230, R231) -/

theorem orderBits_ite_toInt (j : Nat) (less equal : Prop) [Decidable less] [Decidable equal] :
    (orderBits (width j) (if less then .lt else if equal then .eq else .gt)).toInt =
      if less then -1 else if equal then 0 else 1 := by
  rw [orderBits_toInt]
  split_ifs <;> rfl

/-! ### Width conversion (45_compare_convert.md R232, R233) -/

theorem encode_exts (m : BitVec 4) : encode (.exts m) = BitVec.ofNat 16 (0x0154 + 0x0400 * m.toNat) := by
  revert m; decide

/-- The word of a command the unit does not have passes every check of R88 but the one on the width. -/
theorem decode_encode_of_not_wellFormed {W : Nat} {i : Instr} (hi : ¬ i.wellFormed W = true) :
    decode W (encode i) = .error .sourceTooWide := by
  obtain ⟨hrsv, hopc, hsign, halg, -⟩ := encodedFields i
  obtain ⟨ho, hw⟩ := Classical.not_imp.1 (mt (wellFormed_iff i).2 hi)
  rw [decode, if_neg (not_not.2 hrsv), if_neg (not_not.2 hopc), if_neg fun ⟨hs, hn⟩ => hn (hsign hs),
    if_neg fun ⟨ha, hn⟩ => hn (halg ha), if_pos ⟨ho, Nat.lt_of_not_le hw⟩]

section Extensions

variable {N m : Nat} (v : BitVec N)

theorem zeroExtendFrom_toNat : (zeroExtendFrom m v).toNat = v.toNat % 2 ^ m := by
  rw [zeroExtendFrom_eq, BitVec.toNat_ofNat, Nat.mod_eq_of_lt ((Nat.mod_le _ _).trans_lt v.isLt)]

/-- The low `m` bits read signed fit every width from `m` on. -/
theorem signExtendFrom_toInt (h : m ≤ N) : (signExtendFrom m v).toInt = Int.bmod v.toNat (2 ^ m) := by
  rw [signExtendFrom, BitVec.toInt_signExtend_of_le h, BitVec.toInt_setWidth]

end Extensions

/-! ### Unsigned order from the halves (45_compare_convert.md R234) -/

/-- Two-digit numbers in base `H` are ordered lexicographically. -/
theorem compare_digits {H h h' l l' : Nat} (hl : l < H) (hl' : l' < H) :
    compare (h * H + l) (h' * H + l') = (compare h h').then (compare l l') := by
  obtain hlt | rfl | hgt := lt_trichotomy h h'
  · rw [compare_lt_iff_lt.2 hlt]
    exact compare_lt_iff_lt.2 (by nlinarith)
  · rw [compare_eq_iff_eq.2 rfl]
    simp only [Nat.compare_eq_ite_lt, Nat.add_lt_add_iff_left, Ordering.eq_then]
  · rw [compare_gt_iff_gt.2 hgt]
    exact compare_gt_iff_gt.2 (by nlinarith)

theorem compareU_eq_compare {N : Nat} (a b : BitVec N) : compareU a b = compare a.toNat b.toNat := rfl

theorem compareU_halves {j : Nat} (a b : BitVec (width (j + 1))) :
    compareU a b = (compareU (hiPart a) (hiPart b)).then (compareU (loPart a) (loPart b)) := by
  simp only [compareU_eq_compare]
  rw [toNat_eq_parts a, toNat_eq_parts b, compare_digits (loPart a).isLt (loPart b).isLt]

theorem compareTree_succ (j : Nat) (a b : BitVec (width (j + 1))) :
    compareTree (j + 1) a b =
      (compareTree j (hiPart a) (hiPart b)).then (compareTree j (loPart a) (loPart b)) := by
  rw [compareTree]
  cases compareTree j (hiPart a) (hiPart b) <;> rfl

theorem compareTree_eq (j : Nat) (a b : BitVec (width j)) : compareTree j a b = compareU a b := by
  induction j with
  | zero => rfl
  | succ j ih => rw [compareTree_succ, ih, ih, compareU_halves]

/-! ### Signed order from the unsigned one (45_compare_convert.md R234) -/

/-- A power of two above every bit of `x` is added. -/
theorem xor_two_pow_of_lt {x k : Nat} (hx : x < 2 ^ k) : x ^^^ 2 ^ k = x + 2 ^ k := by
  rw [← Nat.div_add_mod' (x ^^^ 2 ^ k) (2 ^ k), Nat.xor_div_two_pow, Nat.xor_mod_two_pow, Nat.div_eq_of_lt hx,
    Nat.mod_eq_of_lt hx, Nat.div_self (Nat.two_pow_pos k), Nat.mod_self, Nat.zero_xor, Nat.xor_zero, one_mul, add_comm]

section FlipSign

variable {N : Nat} (a b v : BitVec N)

/-- With its sign bit inverted a value is its signed reading, moved up by half the range. -/
theorem flipSign_toNat (hN : 0 < N) : ((flipSign v).toNat : Int) = v.toInt + 2 ^ (N - 1) := by
  have hhalf : 2 ^ (N - 1) + 2 ^ (N - 1) = 2 ^ N := Nat.two_pow_pred_add_two_pow_pred hN
  have hv := v.isLt
  rw [flipSign, BitVec.toNat_xor, BitVec.toNat_twoPow_of_lt (by omega), BitVec.toInt_eq_toNat_cond, ← hhalf]
  by_cases hsign : v.toNat < 2 ^ (N - 1)
  · rw [xor_two_pow_of_lt hsign, if_pos (by omega)]
    norm_cast
  · obtain ⟨r, hr⟩ := Nat.exists_eq_add_of_le' (Nat.le_of_not_lt hsign)
    rw [if_neg (by omega), hr, ← xor_two_pow_of_lt (by omega), Nat.xor_xor_cancel_right, xor_two_pow_of_lt (by omega)]
    push_cast
    ring

theorem compareU_flipSign (hN : 0 < N) : compareU (flipSign a) (flipSign b) = compareS a b := by
  have ha := flipSign_toNat a hN
  have hb := flipSign_toNat b hN
  have hlt : (flipSign a).toNat < (flipSign b).toNat ↔ a.toInt < b.toInt := by omega
  have heq : (flipSign a).toNat = (flipSign b).toNat ↔ a.toInt = b.toInt := by omega
  simp only [compareU, compareS, hlt, heq]

end FlipSign

/-! ### The statements -/

/-- Settles O33: the comparator's output, read signed, is the order's number. -/
theorem comparator : Obligations.Comparator := fun s =>
  ⟨decode_encode (i := .cmpu) rfl, decode_encode (i := .cmps) rfl,
    ⟨_, returns_cmpu s, orderBits_ite_toInt _ _ _⟩, ⟨_, returns_cmps s, orderBits_ite_toInt _ _ _⟩⟩

/-- Settles O34: well-formedness is the width check, and a source no wider than the slot extends to it without loss. -/
theorem widthConversion : Obligations.WidthConversion := by
  intro s m
  rw [← encode_extz, ← encode_exts]
  refine ⟨fun hm => ⟨decode_encode (decide_eq_true hm), decode_encode (decide_eq_true hm),
    ⟨_, returns_extz s m, zeroExtendFrom_toNat _⟩, ⟨_, returns_exts s m, signExtendFrom_toInt _ hm⟩⟩, fun hm => ?_⟩
  have hwide : ¬ decide (sourceWidth m ≤ s.W) = true := mt of_decide_eq_true hm.not_ge
  exact ⟨decode_encode_of_not_wellFormed hwide, decode_encode_of_not_wellFormed hwide⟩

/-- Settles O50: the compare of halves is the unsigned order by induction on the width, and inverting the sign bits turns
the signed order into it. -/
theorem comparatorTreeOrders : Obligations.ComparatorTreeOrders := by
  intro s
  rw [compareTree_eq, compareTree_eq, compareU_flipSign _ _ (width_pos s.j)]
  exact ⟨returns_cmpu s, returns_cmps s⟩

end Sys2Proof.Machine

/-! ## Powers and gcd: what the commands return, and Euclid's loop (46_power_gcd.md) -/

namespace Sys2Proof.Machine

/-! ### What the commands return (46_power_gcd.md R250 to R252) -/

/-- A slot holds a value modulo `2 ^ N` (00_scope.md R13). -/
theorem ofNat_mod_two_pow (N x : Nat) : BitVec.ofNat N (x % 2 ^ N) = BitVec.ofNat N x :=
  BitVec.eq_of_toNat_eq (Nat.mod_mod x _)

section Commands

variable (s : State)

theorem returns_pow : Returns .pow s (BitVec.ofNat s.W (s.X0.toNat ^ s.X1.toNat)) := by
  rw [← ofNat_mod_two_pow, ← powMod_eq _ _ s.X1.isLt]
  exact s.respond0_eq _

theorem returns_gcd : Returns .gcd s (BitVec.ofNat s.W (Nat.gcd s.X0.toNat s.X1.toNat)) := s.respond0_eq _

variable {s}

theorem faults_powm (hm : s.X2 = 0) : Faults .powm s (.divideByZero s.cmd.word .x2) := s.requireNonzero_zero hm _ _

theorem returns_powm (hm : s.X2 ≠ 0) :
    Returns .powm s (BitVec.ofNat s.W (s.X0.toNat ^ s.X1.toNat % s.X2.toNat)) := by
  rw [← powMod_eq _ _ s.X1.isLt]
  exact (s.requireNonzero_pos hm _ _).trans (s.respond0_eq _)

end Commands

/-! ### The greatest common divisor (46_power_gcd.md R252) -/

/-- The gcd divides a nonzero operand, so it is no larger; beside a zero it is the other operand. -/
theorem gcd_toNat_lt {N : Nat} (a b : BitVec N) : Nat.gcd a.toNat b.toNat < 2 ^ N := by
  obtain ha | ha := Nat.eq_zero_or_pos a.toNat
  · rw [ha, Nat.gcd_zero_left]
    exact b.isLt
  · exact (Nat.gcd_le_left _ ha).trans_lt a.isLt

/-- Each round's second operand is below the round's before, so as many rounds as the first one's value are enough. -/
theorem euclid_eq_gcd {fuel x y : Nat} (hy : y ≤ fuel) : euclid fuel x y = Nat.gcd x y := by
  induction fuel generalizing x y with
  | zero => rw [Nat.le_zero.1 hy, euclid, Nat.gcd_zero_right]
  | succ fuel ih =>
    rw [euclid]
    split
    case isTrue hzero => rw [hzero, Nat.gcd_zero_right]
    case isFalse hpos =>
      have hrem : x % y < y := Nat.mod_lt x (Nat.pos_of_ne_zero hpos)
      calc euclid fuel y (x % y) = Nat.gcd y (x % y) := ih (by omega)
        _ = Nat.gcd (x % y) y := Nat.gcd_comm _ _
        _ = Nat.gcd y x := (Nat.gcd_rec y x).symm
        _ = Nat.gcd x y := Nat.gcd_comm _ _

/-! ### The statements -/

/-- Settles O35: square and multiply gives the power's remainder, and a nonzero modulus leaves one that fits the slot. -/
theorem powers : Obligations.Powers := by
  intro s
  have hzero : s.X2 = 0 ↔ s.X2.toNat = 0 := eq_zero_iff_toNat s.X2
  refine ⟨decode_encode (i := .pow) rfl, decode_encode (i := .powm) rfl, returns_pow s,
    fun hm => faults_powm (hzero.2 hm), fun hm => ?_⟩
  have hlt : s.X0.toNat ^ s.X1.toNat % s.X2.toNat < s.X2.toNat := Nat.mod_lt _ (Nat.pos_of_ne_zero hm)
  refine ⟨_, returns_powm (mt hzero.1 hm), ?_⟩
  rw [BitVec.toNat_ofNat, Nat.mod_eq_of_lt (hlt.trans s.X2.isLt)]
  exact ⟨rfl, hlt⟩

/-- Settles O36: the gcd fits the slot, and Euclid's loop keeps it until the second operand is zero. -/
theorem greatestCommonDivisor : Obligations.GreatestCommonDivisor := by
  intro s
  refine ⟨decode_encode (i := .gcd) rfl, _, returns_gcd s, ?_⟩
  rw [BitVec.toNat_ofNat, Nat.mod_eq_of_lt (gcd_toNat_lt _ _)]
  exact ⟨fun _ => Nat.dvd_gcd_iff, s.X1.toNat, fun _ hk => euclid_eq_gcd hk⟩

end Sys2Proof.Machine

/-! ## Montgomery multiplier: reduction and its inverse radix, the constructions from `MCTX`, and the commands
(47_montgomery.md) -/

namespace Sys2Proof.Machine

/-! ### Reduction modulo an odd modulus (47_montgomery.md R270, R273, R278) -/

section Reduction

variable {N n : Nat}

/-- Modulo an odd modulus the radix is cancelled, so a value below the modulus is determined by its multiple. -/
theorem eq_of_mul_radix_modEq (hn : n % 2 = 1) {a b : Nat} (ha : a < n) (hb : b < n)
    (h : a * 2 ^ N ≡ b * 2 ^ N [MOD n]) : a = b := by
  have hcoprime : Nat.Coprime n (2 ^ N) := ((Nat.coprime_two_right).2 (Nat.odd_iff.2 hn)).pow_right N
  exact (Nat.ModEq.cancel_right_of_coprime hcoprime h).eq_of_lt_of_lt ha hb

/-- The reduction of `T` is the only value below the modulus whose multiple by the radix is `T` modulo `n`. -/
theorem eq_montReduce (hn : n % 2 = 1) {t T : Nat} (ht : t < n) (h : t * 2 ^ N ≡ T [MOD n]) : t = montReduce N n T :=
  eq_of_mul_radix_modEq hn ht (montReduce_lt T hn) (h.trans (montReduce_mul T hn).symm)

/-- Whatever `Rinv` R270 is met by, multiplying by it is the reduction. -/
theorem IsRadixInverse.mul_mod_eq {rinv : Nat} (h : IsRadixInverse N n rinv) (hn : n % 2 = 1) (T : Nat) :
    T * rinv % n = montReduce N n T := by
  obtain ⟨-, hmul⟩ := h
  refine eq_montReduce hn (Nat.mod_lt _ (by omega)) ?_
  calc T * rinv % n * 2 ^ N ≡ T * rinv * 2 ^ N [MOD n] := (Nat.mod_modEq _ _).mul_right _
    _ = T * (2 ^ N * rinv) := by ring
    _ ≡ T * 1 [MOD n] := Nat.ModEq.mul_left T hmul
    _ = T := mul_one T

/-- Reducing a value congruent to a multiple of the radix divides the radix out. -/
theorem montReduce_of_modEq (hn : n % 2 = 1) {T x : Nat} (h : T ≡ x * 2 ^ N [MOD n]) : montReduce N n T = x % n :=
  (montReduce_congr h).trans (montReduce_radix x hn)

/-- The reduced product of two values in Montgomery form is their product in Montgomery form. -/
theorem montReduce_mul_of_modEq (hn : n % 2 = 1) {a b x y : Nat} (ha : a ≡ x * 2 ^ N [MOD n])
    (hb : b ≡ y * 2 ^ N [MOD n]) :
    montReduce N n (a * b) = x * y * 2 ^ N % n := by
  refine montReduce_of_modEq hn ((ha.mul hb).trans ?_)
  rw [show x * 2 ^ N * (y * 2 ^ N) = x * y * 2 ^ N * 2 ^ N by ring]

end Reduction

/-! ### The constructions that read `MCTX.ninv` and `MCTX.one` (47_montgomery.md R273, R275) -/

section Constructions

variable {N n : Nat}

/-- With `n * ninv = 1` modulo the radix, `T` and the multiple of `n` taken off it agree modulo the radix. -/
theorem radix_dvd_sub_mul {ninv : Nat} (hninv : n * ninv % 2 ^ N = 1) (T : Nat) :
    ((2 ^ N : Nat) : Int) ∣ (T : Int) - (T * ninv % 2 ^ N : Nat) * n := by
  have hone : n * ninv ≡ 1 [MOD 2 ^ N] := by
    rw [← hninv]
    exact (Nat.mod_modEq _ _).symm
  have h : T * ninv % 2 ^ N * n ≡ T [MOD 2 ^ N] := by
    calc T * ninv % 2 ^ N * n ≡ T * ninv * n [MOD 2 ^ N] := (Nat.mod_modEq _ _).mul_right _
      _ = T * (n * ninv) := by ring
      _ ≡ T * 1 [MOD 2 ^ N] := hone.mul_left T
      _ = T := mul_one T
  exact_mod_cast Nat.modEq_iff_dvd.1 h

/-- A number in `[0, n)` whose multiple by the radix differs from `T` by a multiple of `n` is the reduction of `T`. -/
theorem eq_montReduce_of_dvd (hn : n % 2 = 1) {t : Int} {T : Nat} (h0 : 0 ≤ t) (hlt : t < n)
    (h : (n : Int) ∣ T - t * 2 ^ N) : t = montReduce N n T := by
  lift t to Nat using h0
  exact_mod_cast eq_montReduce hn (by exact_mod_cast hlt) (Nat.modEq_iff_dvd.2 (by exact_mod_cast h))

/-- In range the stored inverse leaves a `t` with `t * 2^N = T - m * n` that is above `-n` and below `n`: at most one
`n` is missing, and with it `t` is the reduction. -/
theorem reduceByInverse_eq {ninv T : Nat} (hn : n % 2 = 1) (hninv : n * ninv % 2 ^ N = 1) (hT : T < n * 2 ^ N) :
    reduceByInverse N n ninv T = montReduce N n T := by
  obtain ⟨t, ht⟩ := radix_dvd_sub_mul hninv T
  have hm : T * ninv % 2 ^ N < 2 ^ N := Nat.mod_lt _ (Nat.two_pow_pos N)
  rw [reduceByInverse]
  set m := T * ninv % 2 ^ N
  push_cast at ht
  have hR : (0 : Int) < 2 ^ N := by positivity
  have hquot : ((T : Int) - m * n) / 2 ^ N = t := by rw [ht, Int.mul_ediv_cancel_left t hR.ne']
  have hm' : (m : Int) < 2 ^ N := by exact_mod_cast hm
  have hT' : (T : Int) < n * 2 ^ N := by exact_mod_cast hT
  have hlower : -(n : Int) < t := by
    have hn0 : (0 : Int) < n := by omega
    nlinarith
  have hupper : t < n := by nlinarith
  simp only [hquot]
  split
  case isTrue hneg => exact eq_montReduce_of_dvd hn (by omega) (by omega) ⟨m - 2 ^ N, by linarith⟩
  case isFalse hpos => exact eq_montReduce_of_dvd hn (by omega) hupper ⟨m, by linarith⟩

/-- Square and multiply on values in Montgomery form gives the power in Montgomery form. -/
theorem montPowLoop_eq (hn : n % 2 = 1) : ∀ {fuel r b e x y : Nat}, r = y * 2 ^ N % n → b ≡ x * 2 ^ N [MOD n] →
    e < 2 ^ fuel → montPowLoop N n fuel r b e = y * x ^ e * 2 ^ N % n
  | 0, r, b, e, x, y, hr, hb, he => by
    obtain rfl : e = 0 := by simpa using he
    rw [montPowLoop, hr, pow_zero, mul_one]
  | fuel + 1, r, b, e, x, y, hr, hb, he => by
    have he2 : e / 2 < 2 ^ fuel := by rw [pow_succ] at he; omega
    have hr' : r ≡ y * 2 ^ N [MOD n] := hr ▸ Nat.mod_modEq _ _
    have hsq : montReduce N n (b * b) ≡ x * x * 2 ^ N [MOD n] := by
      rw [montReduce_mul_of_modEq hn hb hb]
      exact Nat.mod_modEq _ _
    rw [montPowLoop]
    split
    case isTrue hodd =>
      rw [montPowLoop_eq hn (montReduce_mul_of_modEq hn hr' hb) hsq he2]
      have hpow : x ^ e = x * (x * x) ^ (e / 2) := by
        rw [← pow_two, ← pow_mul, ← pow_succ']
        congr 1
        omega
      rw [hpow, mul_assoc y]
    case isFalse heven =>
      rw [montPowLoop_eq hn hr hsq he2]
      have hpow : x ^ e = (x * x) ^ (e / 2) := by
        rw [← pow_two, ← pow_mul]
        congr 1
        omega
      rw [hpow]

end Constructions

/-! ### What the commands return (47_montgomery.md R273 to R277; 60_exceptions.md R301) -/

/-- The Montgomery commands check for a context before they read any other field of it. -/
theorem faults_noContext {i : Instr} {s : State} (hr : readsContext i = true) (hv : s.mctx.valid = false) :
    Faults i s (.noContext s.cmd.word) := by
  cases i
  case mreduce | mmul | mpow | mto | mfrom => exact s.requireContext_invalid hv _
  all_goals cases hr

/-- `i` reduces `T` in a unit `s` with a context: in range it answers the reduction, out of range a draw (R273,
R274). -/
def Reduces (i : Instr) (s : State) (T : Nat) : Prop :=
  exec i s = s.requireContext
    (if s.modulus * 2 ^ s.W ≤ T then s.respondDraw else s.respond0 (BitVec.ofNat s.W (montReduce s.W s.modulus T)))

section Commands

variable {s : State}

theorem reduces_mreduce : Reduces .mreduce s (s.X1.toNat * 2 ^ s.W + s.X0.toNat) := by
  rw [← uintPair_eq]
  rfl

theorem reduces_mmul : Reduces .mmul s (s.X0.toNat * s.X1.toNat) := rfl

theorem Reduces.returns {i : Instr} {T : Nat} (h : Reduces i s T) (hv : s.mctx.valid = true)
    (hT : T < s.mctx.n.toNat * 2 ^ s.W) :
    Returns i s (BitVec.ofNat s.W (montReduce s.W s.mctx.n.toNat T)) :=
  h.trans ((s.requireContext_valid hv _).trans (if_neg hT.not_ge))

theorem Reduces.draws {i : Instr} {T : Nat} (h : Reduces i s T) (hv : s.mctx.valid = true)
    (hT : s.mctx.n.toNat * 2 ^ s.W ≤ T) : exec i s = s.respondDraw :=
  h.trans ((s.requireContext_valid hv _).trans (if_pos hT))

theorem returns_mpow (hv : s.mctx.valid = true) (ha : s.X0.toNat < s.mctx.n.toNat) :
    Returns .mpow s (BitVec.ofNat s.W
      (2 ^ s.W * montReduce s.W s.mctx.n.toNat s.X0.toNat ^ s.X1.toNat % s.mctx.n.toNat)) := by
  rw [← Nat.mul_mod_mod, ← powMod_eq _ _ s.X1.isLt]
  exact (s.requireContext_valid hv _).trans (if_neg ha.not_ge)

theorem mpow_draws (hv : s.mctx.valid = true) (ha : s.mctx.n.toNat ≤ s.X0.toNat) : exec .mpow s = s.respondDraw :=
  (s.requireContext_valid hv _).trans (if_pos ha)

theorem returns_mto (hv : s.mctx.valid = true) :
    Returns .mto s (BitVec.ofNat s.W (s.X0.toNat * 2 ^ s.W % s.mctx.n.toNat)) :=
  s.requireContext_valid hv _

theorem returns_mfrom (hv : s.mctx.valid = true) :
    Returns .mfrom s (BitVec.ofNat s.W (montReduce s.W s.mctx.n.toNat s.X0.toNat)) :=
  s.requireContext_valid hv _

end Commands

/-! ### The commands on values in Montgomery form (47_montgomery.md R278) -/

/-- A number below a modulus that fits a slot fits it too. -/
theorem toNat_ofNat_of_lt {N x : Nat} {n : BitVec N} (hx : x < n.toNat) : (BitVec.ofNat N x).toNat = x := by
  rw [BitVec.toNat_ofNat, Nat.mod_eq_of_lt (hx.trans n.isLt)]

/-- The Montgomery representation of `x` modulo `n` (R270). -/
def montForm {N : Nat} (n : BitVec N) (x : Nat) : BitVec N := BitVec.ofNat N (x * 2 ^ N % n.toNat)

section Form

variable {N : Nat} {n : BitVec N} (hn : n.toNat % 2 = 1) (x : Nat)

include hn

theorem montForm_toNat : (montForm n x).toNat = x * 2 ^ N % n.toNat := toNat_ofNat_of_lt (Nat.mod_lt _ (by omega))

theorem montForm_toNat_modEq : (montForm n x).toNat ≡ x * 2 ^ N [MOD n.toNat] := by
  rw [montForm_toNat hn]
  exact Nat.mod_modEq _ _

theorem montForm_toNat_lt : (montForm n x).toNat < n.toNat := by
  rw [montForm_toNat hn]
  exact Nat.mod_lt _ (by omega)

end Form

section RoundTrip

variable {s : State} (hv : s.mctx.valid = true) (hn : s.mctx.n.toNat % 2 = 1) {x y : Nat}

include hv hn

theorem returns_mmul_montForm (hx : s.X0 = montForm s.mctx.n x) (hy : s.X1 = montForm s.mctx.n y) :
    Returns .mmul s (montForm s.mctx.n (x * y)) := by
  have hT : s.X0.toNat * s.X1.toNat < s.mctx.n.toNat * 2 ^ s.W :=
    Nat.mul_lt_mul'' (hx ▸ montForm_toNat_lt hn x) s.X1.isLt
  have hval := montReduce_mul_of_modEq hn (montForm_toNat_modEq hn x) (montForm_toNat_modEq hn y)
  rw [montForm, ← hval, ← hx, ← hy]
  exact reduces_mmul.returns hv hT

theorem returns_mpow_montForm (hx : s.X0 = montForm s.mctx.n x) :
    Returns .mpow s (montForm s.mctx.n (x ^ s.X1.toNat)) := by
  have hval : 2 ^ s.W * montReduce s.W s.mctx.n.toNat s.X0.toNat ^ s.X1.toNat % s.mctx.n.toNat =
      x ^ s.X1.toNat * 2 ^ s.W % s.mctx.n.toNat := by
    rw [hx, montReduce_of_modEq hn (montForm_toNat_modEq hn x), mul_comm]
    exact ((Nat.mod_modEq _ _).pow _).mul_right _
  rw [montForm, ← hval]
  exact returns_mpow hv (hx ▸ montForm_toNat_lt hn x)

theorem returns_mfrom_montForm (hx : s.X0 = montForm s.mctx.n x) :
    Returns .mfrom s (BitVec.ofNat s.W (x % s.mctx.n.toNat)) := by
  rw [← montReduce_of_modEq hn (montForm_toNat_modEq hn x), ← hx]
  exact returns_mfrom hv

end RoundTrip

/-! ### The statements -/

/-- Settles O37: the two values of bit 0, and the context loaded is sound. -/
theorem contextConstruction : Obligations.ContextConstruction := by
  intro s
  refine ⟨decode_encode (i := .minit) rfl, exec_minit_even, fun hodd => ?_⟩
  obtain ⟨-, hninv, hrecip, hone⟩ := contextOf_holds hodd rfl
  exact ⟨contextOf s.X0, exec_minit_odd hodd, rfl, rfl, hninv, hrecip, hone⟩

/-- Settles O38: both commands reduce, and any `Rinv` gives the reduction. -/
theorem montgomeryReduceAndMultiply : Obligations.MontgomeryReduceAndMultiply := by
  intro s i T rinv
  refine ⟨decode_encode (i := .mreduce) rfl, decode_encode (i := .mmul) rfl, fun hi => ?_⟩
  obtain ⟨hr, hred⟩ : readsContext i = true ∧ Reduces i s T := by
    obtain ⟨rfl, rfl⟩ | ⟨rfl, rfl⟩ := hi
    · exact ⟨rfl, reduces_mreduce⟩
    · exact ⟨rfl, reduces_mmul⟩
  refine ⟨faults_noContext hr, fun hv hn hrinv => ⟨fun hT => ?_, fun hT => ?_⟩⟩
  · rw [hrinv.mul_mod_eq hn]
    exact hred.returns hv hT
  · exact (hred.draws hv hT).trans s.respondDraw_eq

/-- Settles O39: any `Rinv` takes the base out of Montgomery form as the reduction does. -/
theorem montgomeryPower : Obligations.MontgomeryPower := by
  intro s rinv n a
  refine ⟨decode_encode (i := .mpow) rfl, faults_noContext rfl, fun hv hn hrinv => ⟨fun ha => ?_, fun ha => ?_⟩⟩
  · rw [hrinv.mul_mod_eq hn]
    exact returns_mpow hv ha
  · exact (mpow_draws hv ha).trans s.respondDraw_eq

/-- Settles O40: neither transform bounds its operand, and any `Rinv` gives the reduction. -/
theorem montgomeryTransforms : Obligations.MontgomeryTransforms := by
  intro s rinv n
  refine ⟨decode_encode (i := .mto) rfl, decode_encode (i := .mfrom) rfl,
    fun hv => ⟨faults_noContext rfl hv, faults_noContext rfl hv⟩, fun hv hn hrinv => ⟨returns_mto hv, ?_⟩⟩
  rw [hrinv.mul_mod_eq hn]
  exact returns_mfrom hv

/-- Settles O41: the commands carry the product and the power over to Montgomery form, and MFROM takes the form off. -/
theorem montgomeryRoundTrip : Obligations.MontgomeryRoundTrip := by
  intro s n hn
  refine ⟨contextOf n, _, exec_minit_odd hn, ?_⟩
  intro a b e ha hb u
  have hlt (x : Nat) : x % n.toNat < n.toNat := Nat.mod_lt _ (by omega)
  have hne : n ≠ 0 := mt (eq_zero_iff_toNat n).1 (by omega)
  exact ⟨montForm n a.toNat, montForm n b.toNat, montForm n (a.toNat * b.toNat), _, montForm n (a.toNat ^ e.toNat), _,
    returns_mto (s := u.present a 0 0 0) rfl,
    returns_mto (s := u.present b 0 0 0) rfl,
    returns_mmul_montForm (s := u.present (montForm n a.toNat) (montForm n b.toNat) 0 0) rfl hn rfl rfl,
    returns_mfrom_montForm (s := u.present (montForm n (a.toNat * b.toNat)) 0 0 0) rfl hn rfl,
    toNat_ofNat_of_lt (hlt _),
    returns_mpow_montForm (s := u.present (montForm n a.toNat) e 0 0) rfl hn rfl,
    returns_mfrom_montForm (s := u.present (montForm n (a.toNat ^ e.toNat)) 0 0 0) rfl hn rfl,
    toNat_ofNat_of_lt (hlt _),
    returns_powm (s := u.present a e n 0) hne⟩

/-- Settles O42: in range the stored inverse gives the reduction, and square and multiply from the stored one gives the
power in Montgomery form. -/
theorem storedInverseAndOneGiveTheResults : Obligations.StoredInverseAndOneGiveTheResults := by
  intro s hinv hv
  obtain ⟨hn, hninv, -, hone⟩ := hinv hv
  refine ⟨fun T hT hlt => ?_, fun ha => ?_⟩
  · subst hT
    rw [reduceByInverse_eq hn hninv hlt, BitVec.ofInt_natCast]
    exact reduces_mreduce.returns hv hlt
  · rw [montPowLoop_eq hn (y := 1) (x := montReduce s.W s.mctx.n.toNat s.X0.toNat) (by rw [hone, one_mul])
      (montReduce_mul _ hn).symm s.X1.isLt, one_mul, mul_comm]
    exact returns_mpow hv ha

end Sys2Proof.Machine

/-! ## Exceptions: when the commands fault, and how the latch stays (60_exceptions.md) -/

namespace Sys2Proof.Machine

/-! ### A command that completes (60_exceptions.md R300) -/

/-- `a`, a result in `s`, is a response, with what it writes to `MCTX` and draws: it is no fault. -/
def Completes (s : State) (a : Result) : Prop :=
  ∃ (r : Response s.W) (m : Mctx s.W) (k : Nat),
    a = .next { s with responses := r :: s.responses, mctx := m, draws := s.draws + k }

namespace Completes

variable {s : State} {a b : Result}

theorem respond (y0 y1 : BitVec s.W) (f : Bool) : Completes s (s.respond y0 y1 f) := ⟨_, s.mctx, 0, rfl⟩

theorem respondDraw : Completes s s.respondDraw := ⟨_, s.mctx, 1, rfl⟩

theorem respondDraws : Completes s s.respondDraws := ⟨_, s.mctx, 2, rfl⟩

theorem ite {p : Prop} [Decidable p] (ha : Completes s a) (hb : Completes s b) : Completes s (if p then a else b) := by
  split
  · exact ha
  · exact hb

theorem requireNonzero {N : Nat} {d : BitVec N} {slot : Slot} (hd : d ≠ 0) (h : Completes s a) :
    Completes s (s.requireNonzero d slot a) := by
  rwa [s.requireNonzero_pos hd]

theorem requireBelow {N : Nat} {nh d : BitVec N} (hlt : nh.toNat < d.toNat) (h : Completes s a) :
    Completes s (s.requireBelow nh d a) := by
  rwa [s.requireBelow_below hlt]

theorem requireContext (hv : s.mctx.valid = true) (h : Completes s a) : Completes s (s.requireContext a) := by
  rwa [s.requireContext_valid hv]

end Completes

/-- A command all of whose checks pass completes: MINIT's modulus is odd, a Montgomery command has a context, a divisor
or modulus is nonzero, and the wide divisions' numerator high is below the divisor. -/
theorem exec_completes {i : Instr} {s : State}
    (hcontext : readsContext i = true → s.mctx.valid = true)
    (hodd : i = .minit → s.X0.toNat % 2 = 1)
    (hX0 : i = .recip → s.X0 ≠ 0)
    (hX1 : (∃ a, i = .divremu a) ∨ (∃ a, i = .divrems a) ∨ i = .divr → s.X1 ≠ 0)
    (hX2 : i = .divw ∨ i = .powm → s.X2 ≠ 0)
    (hlow : i = .wdiv → lowWord s.X2 ≠ 0)
    (hdivw : i = .divw → s.X0.toNat < s.X2.toNat)
    (hwdiv : i = .wdiv → (lowWord s.X0).toNat < (lowWord s.X2).toNat) : Completes s (exec i s) := by
  cases i
  case minit => exact ⟨_, contextOf s.X0, 0, exec_minit_odd (hodd rfl)⟩
  case mreduce | mmul | mpow => exact .requireContext (hcontext rfl) (.ite .respondDraw (.respond _ _ _))
  case mto | mfrom => exact .requireContext (hcontext rfl) (.respond _ _ _)
  case recip => exact .requireNonzero (hX0 rfl) (.respond _ _ _)
  case divremu alg => exact .requireNonzero (hX1 (.inl ⟨alg, rfl⟩)) (.respond _ _ _)
  case divrems alg => exact .requireNonzero (hX1 (.inr (.inl ⟨alg, rfl⟩))) (.respond _ _ _)
  case divr => exact .requireNonzero (hX1 (.inr (.inr rfl))) (.ite (.respond _ _ _) .respondDraws)
  case powm => exact .requireNonzero (hX2 (.inr rfl)) (.respond _ _ _)
  case divw => exact .requireNonzero (hX2 (.inl rfl)) (.requireBelow (hdivw rfl) (.respond _ _ _))
  case wdiv => exact .requireNonzero (hlow rfl) (.requireBelow (hwdiv rfl) (.respond _ _ _))
  all_goals exact .respond _ _ _

/-! ### One step of a unit that is presented a command (60_exceptions.md R303) -/

theorem FaultLatch.name_eq_none_iff {W : Nat} {f : FaultLatch W} : f.name = .none ↔ f = .none := by
  cases f <;> simp [FaultLatch.name]

/-- With `FAULT = NONE` the command presented is taken, and it returns one response or sets the latch alone. -/
theorem step_command {s : State} {c : Command s.W} {rest : List (HostEvent s.W)} (hs : s.stream = .command c :: rest)
    (hf : s.fault = .none) :
    (∃ r m d, step s = .next { s with
      cmd := c, stream := rest, responses := r :: s.responses, mctx := m, draws := d }) ∨
    ∃ f, f ≠ .none ∧ step s = .next { s with cmd := c, stream := rest, fault := f } := by
  cases hd : decode s.W c.word with
  | error err => exact .inr ⟨.illegalCommand c.word, nofun, step_illegal hs hf hd⟩
  | ok i =>
    obtain ⟨e, he, hexec⟩ := exec_eq_after i (s.accept c rest)
    cases e with
    | answer r written k => exact .inl ⟨r, _, _, (step_legal hs hf hd).trans hexec⟩
    | fault f => exact .inr ⟨f, he, (step_legal hs hf hd).trans hexec⟩

/-- A latched unit accepts no command: the run stops with the fault and the responses before it. -/
theorem step_latched_bad {s : State} {c : Command s.W} {rest : List (HostEvent s.W)}
    (hs : s.stream = .command c :: rest) (hf : s.fault ≠ .none) :
    step s = .fault (.latched s.j (.bad s.fault.name s.responses.reverse)) := by
  rw [step_latched hs hf, State.observation_bad hf]

/-! ### The statements -/

/-- Settles O13: the check for a context comes first, and reset leaves none. -/
theorem montgomeryCommandsNeedAContext : Obligations.MontgomeryCommandsNeedAContext :=
  ⟨fun _ s m hr hv => faults_noContext (s := { s with mctx := m }) hr hv,
    fun j _ c hr => faults_noContext (s := { State.resetAt j with cmd := c }) hr rfl⟩

/-- Settles O12: each check faults under its condition, and a command all of whose checks pass completes. -/
theorem commandsFaultInExactlyTheseCases : Obligations.CommandsFaultInExactlyTheseCases := by
  intro i s zero low noContext evenModulus zero0 zero1 zero2 overflow
  have hzero (v : BitVec s.W) : v = 0 ↔ zero v := eq_zero_iff_toNat v
  have hlow : lowWord s.X2 = 0 ↔ low s.X2 = 0 := lowWord_eq_zero_iff s.X2
  refine ⟨fun ⟨hr, hv⟩ => faults_noContext hr hv, ?_, ?_, ?_, ?_, ?_, ?_,
    fun c rest e hs hf hd => step_illegal hs hf hd, fun w v x => ⟨rfl, rfl, rfl, rfl, rfl, rfl⟩⟩
  · rintro ⟨rfl, heven⟩
    exact exec_minit_even heven
  · rintro ⟨rfl, h⟩
    exact s.requireNonzero_zero ((hzero _).2 h) _ _
  · rintro ⟨⟨alg, rfl⟩ | ⟨alg, rfl⟩ | rfl, h⟩
    all_goals exact s.requireNonzero_zero ((hzero _).2 h) _ _
  · rintro (⟨rfl | rfl, h⟩ | ⟨rfl, h⟩)
    · exact s.requireNonzero_zero ((hzero _).2 h) _ _
    · exact s.requireNonzero_zero ((hzero _).2 h) _ _
    · exact s.requireNonzero_zero (hlow.2 h) _ _
  · rintro (⟨rfl, hd, hle⟩ | ⟨rfl, hd, hle⟩)
    · exact (s.requireNonzero_pos (mt (hzero _).1 hd) _ _).trans (s.requireBelow_above hle _)
    · refine (s.requireNonzero_pos (mt hlow.1 hd) _ _).trans (s.requireBelow_above ?_ _)
      rwa [lowWord_toNat, lowWord_toNat]
  · intro hcontext heven hzero0 hzero1 hzero2 hover
    have hzero2' : i = .divw ∨ i = .powm → ¬ zero s.X2 := fun hi h => hzero2 (.inl ⟨hi, h⟩)
    have hlow' : i = .wdiv → low s.X2 ≠ 0 := fun hi h => hzero2 (.inr ⟨hi, h⟩)
    refine exec_completes (fun hr => Bool.eq_true_of_not_eq_false fun hv => hcontext ⟨hr, hv⟩)
      (fun hi => Nat.mod_two_ne_zero.1 fun h => heven ⟨hi, h⟩)
      (fun hi => mt (hzero _).1 fun h => hzero0 ⟨hi, h⟩) (fun hi => mt (hzero _).1 fun h => hzero1 ⟨hi, h⟩)
      (fun hi => mt (hzero _).1 (hzero2' hi)) (fun hi => mt hlow.1 (hlow' hi))
      (fun hi => not_le.1 fun hle => hover (.inl ⟨hi, hzero2' (.inl hi), hle⟩)) (fun hi => ?_)
    rw [lowWord_toNat, lowWord_toNat]
    exact not_le.1 fun hle => hover (.inr ⟨hi, hlow' hi, hle⟩)

/-- Settles O7: a reset is taken whatever the latch holds. -/
theorem resetClearsContextAndFault : Obligations.ResetClearsContextAndFault :=
  fun s _ hs => ⟨Command.zero s.W, Mctx.reset s.W, rfl, step_reset hs⟩

/-- Settles O6, by what the host does next: a reset clears the latch, and only a command that is taken sets it. -/
theorem faultsArePreciseAndStayLatched : Obligations.FaultsArePreciseAndStayLatched := by
  intro s
  refine ⟨fun t h hf ht => ?_, fun hf => ⟨fun c rest hs => step_latched_bad hs hf, fun t h ht => ?_, step_wait⟩⟩
  · have hname : s.fault.name = .none := FaultLatch.name_eq_none_iff.2 hf
    rcases hs : s.stream with _ | ⟨c | _, rest⟩
    case nil =>
      cases (step_wait hs).symm.trans h
      exact absurd hname ht
    case cons.reset =>
      cases (step_reset hs).symm.trans h
      exact absurd rfl ht
    case cons.command =>
      obtain ⟨r, m, d, hstep⟩ | ⟨f, -, hstep⟩ := step_command hs hf
      · cases hstep.symm.trans h
        exact absurd hname ht
      · exact ⟨c, rest, f, rfl, Host.Outcome.next.inj (h.symm.trans hstep)⟩
  · rcases hs : s.stream with _ | ⟨c | _, rest⟩
    case nil =>
      cases (step_wait hs).symm.trans h
      exact absurd (FaultLatch.name_eq_none_iff.1 ht) hf
    case cons.reset => exact ⟨rest, rfl⟩
    case cons.command => cases (step_latched hs hf).symm.trans h

end Sys2Proof.Machine

/-! ## Runs: what a unit does with the host's whole stream (70_reset_and_hazards.md R353, R355) -/

namespace Sys2Proof.Machine

/-! ### Steps one after another -/

theorem core_run_fault {s : State} {f : Fault} (k : Nat) (h : step s = .fault f) :
    Sys2Proof.core.run (k + 1) s = .fault f := by
  have hstep : Sys2Proof.core.step s = .fault f := h
  simp only [Host.Core.run, hstep]

/-- A run that reaches `t` begins with a step that answers. -/
theorem step_of_core_run_succ {k : Nat} {s t : State} (h : Sys2Proof.core.run (k + 1) s = .next t) :
    ∃ u, step s = .next u ∧ Sys2Proof.core.run k u = .next t := by
  simp only [Host.Core.run] at h
  split at h
  case h_1 u hstep => exact ⟨u, hstep, h⟩
  all_goals cases h

/-- With an event to take, a step takes it, or the event is a command and the unit is latched. -/
theorem step_takes_or_latched {s : State} {e : HostEvent s.W} {rest : List (HostEvent s.W)}
    (hs : s.stream = e :: rest) :
    (∃ c rs m f d, step s = .next
      { j := s.j, cmd := c, stream := rest, responses := rs, mctx := m, fault := f, draws := d }) ∨
    s.fault ≠ .none ∧ step s = .fault (.latched s.j (.bad s.fault.name s.responses.reverse)) := by
  cases e with
  | reset => exact .inl ⟨_, _, _, _, _, step_reset hs⟩
  | command c =>
    by_cases hf : s.fault = .none
    · obtain ⟨r, m, d, hstep⟩ | ⟨f, -, hstep⟩ := step_command hs hf
      · exact .inl ⟨_, _, _, _, _, hstep⟩
      · exact .inl ⟨_, _, _, _, _, hstep⟩
    · exact .inr ⟨hf, step_latched_bad hs hf⟩

/-- As many steps as there are events take them all, or stop at a command presented to the latched unit. -/
theorem run_completes_or_latches (k : Nat) (s : State) (hk : s.stream.length = k) :
    (∃ t, Sys2Proof.core.run k s = .next t ∧ State.stream t = []) ∨
    ∃ (name : FaultName) (rs : List (Response s.W)), name ≠ FaultName.none ∧
      Sys2Proof.core.run k s = .fault (.latched s.j (.bad name rs)) := by
  induction k generalizing s with
  | zero => exact .inl ⟨s, rfl, List.length_eq_zero_iff.1 hk⟩
  | succ k ih =>
    obtain ⟨e, rest, hs⟩ := List.exists_cons_of_length_eq_add_one hk
    have hrest : rest.length = k := by simpa [hs] using hk
    obtain ⟨c, rs, m, f, d, hstep⟩ | ⟨hf, hstep⟩ := step_takes_or_latched hs
    · rw [core_run_succ k hstep]
      exact ih ⟨s.j, c, rest, rs, m, f, d⟩ hrest
    · exact .inr ⟨_, _, mt FaultLatch.name_eq_none_iff.1 hf, core_run_fault k hstep⟩

/-- A run that reaches `t` goes on from `t`. -/
theorem core_run_add {m : Nat} (n : Nat) {s t : State} (h : Sys2Proof.core.run m s = .next t) :
    Sys2Proof.core.run (m + n) s = Sys2Proof.core.run n t := by
  induction m generalizing s with
  | zero =>
    obtain rfl : s = t := Host.Outcome.next.inj h
    rw [Nat.zero_add]
  | succ m ih =>
    obtain ⟨u, hstep, hrun⟩ := step_of_core_run_succ h
    rw [Nat.succ_add, core_run_succ _ hstep]
    exact ih hrun

/-! ### A run of commands (70_reset_and_hazards.md R355) -/

section Commands

variable {j : Nat}

/-- From `s`, with the responses `rs₀` returned before, every command of `es` completes, each with one response. -/
def CompletesAll (s : State) (rs₀ : List (Response (width j))) (es : List (Command (width j))) : Prop :=
  ∃ (c : Command (width j)) (rs : List (Response (width j))) (m : Mctx (width j)) (d : Nat), rs.length = es.length ∧
    Sys2Proof.core.run es.length s = .next ⟨j, c, [], rs.reverse ++ rs₀, m, .none, d⟩

/-- From `s`, with the responses `rs₀` returned before, some commands of `es` complete, each with one response, and the
next one sets the latch alone. -/
def CompletesUntilFault (s : State) (rs₀ : List (Response (width j))) (es : List (Command (width j))) : Prop :=
  ∃ (before after : List (Command (width j))) (c : Command (width j)) (f : FaultLatch (width j))
      (rs : List (Response (width j))) (m : Mctx (width j)) (d : Nat),
    f ≠ .none ∧ es = before ++ c :: after ∧ rs.length = before.length ∧
    Sys2Proof.core.run (before.length + 1) s = .next ⟨j, c, after.map .command, rs.reverse ++ rs₀, m, f, d⟩

variable {s t : State} {r : Response (width j)} {rs₀ : List (Response (width j))} {es : List (Command (width j))}

theorem CompletesAll.cons (c : Command (width j)) (hstep : step s = .next t) (h : CompletesAll t (r :: rs₀) es) :
    CompletesAll s rs₀ (c :: es) := by
  obtain ⟨c', rs, m, d, hlen, hrun⟩ := h
  refine ⟨c', r :: rs, m, d, congrArg (· + 1) hlen, ?_⟩
  rw [List.reverse_cons, List.append_assoc]
  exact (core_run_succ es.length hstep).trans hrun

theorem CompletesUntilFault.cons (c : Command (width j)) (hstep : step s = .next t)
    (h : CompletesUntilFault t (r :: rs₀) es) : CompletesUntilFault s rs₀ (c :: es) := by
  obtain ⟨before, after, c', f, rs, m, d, hf, rfl, hlen, hrun⟩ := h
  refine ⟨c :: before, after, c', f, r :: rs, m, d, hf, rfl, congrArg (· + 1) hlen, ?_⟩
  rw [List.reverse_cons, List.append_assoc]
  exact (core_run_succ (before.length + 1) hstep).trans hrun

/-- Commands presented to a unit with `FAULT = NONE` all complete, or one faults after those before it completed. -/
theorem completesAll_or_completesUntilFault : ∀ (es : List (Command (width j))) (shown : Command (width j))
    (rs₀ : List (Response (width j))) (m : Mctx (width j)) (d : Nat),
    CompletesAll ⟨j, shown, es.map .command, rs₀, m, .none, d⟩ rs₀ es ∨
    CompletesUntilFault ⟨j, shown, es.map .command, rs₀, m, .none, d⟩ rs₀ es
  | [], shown, rs₀, m, d => .inl ⟨shown, [], m, d, rfl, rfl⟩
  | c :: es, shown, rs₀, m, d => by
    obtain ⟨r, m', d', hstep⟩ | ⟨f, hf, hstep⟩ :=
      step_command (s := ⟨j, shown, (c :: es).map .command, rs₀, m, .none, d⟩) rfl rfl
    · exact (completesAll_or_completesUntilFault es c (r :: rs₀) m' d').imp (.cons c hstep) (.cons c hstep)
    · exact .inr ⟨[], es, c, f, [], m, d, hf, rfl, rfl, core_run_succ 0 hstep⟩

end Commands

/-- A unit that ran into a fault stops at the next command, whatever else the host has to do. -/
theorem run_latched {s : State} {c : Command s.W} {rest : List (HostEvent s.W)} (k : Nat)
    (hs : s.stream = .command c :: rest) (hf : s.fault ≠ .none) :
    Sys2Proof.core.run (k + 1) s = .fault (.latched s.j (.bad s.fault.name s.responses.reverse)) :=
  core_run_fault k (step_latched_bad hs hf)

/-! ### The statements -/

/-- Settles O10, by induction on the number of events: a step takes one, or the run stops at the latched unit. -/
theorem runsCompleteOrLatch : Obligations.RunsCompleteOrLatch := fun s => run_completes_or_latches s.stream.length s rfl

/-- Settles O56: the observation of the unit each kind of run ends in. -/
theorem runsShowResponsesOrTheFault : Obligations.RunsShowResponsesOrTheFault := by
  rintro ⟨j, shown, stream, rs₀, m₀, fault, d₀⟩ (es : List (Command (width j)))
    (hs : stream = es.map .command) (hf : fault = .none)
  subst hs hf
  obtain ⟨c, rs, m, d, hlen, hrun⟩ | ⟨before, after, c, f, rs, m, d, hf, rfl, hlen, hrun⟩ :=
    completesAll_or_completesUntilFault es shown rs₀ m₀ d₀
  · refine .inl ⟨c, rs, m, d, hlen, hrun, ⟨rfl, rfl⟩, ?_⟩
    rw [State.observation_good rfl, List.reverse_append, List.reverse_reverse]
  · have hresponses : (rs.reverse ++ rs₀).reverse = rs₀.reverse ++ rs := by simp
    refine .inr ⟨before, after, c, f, rs, m, d, rfl, hlen, hrun, hf, ?_, fun hafter => ?_⟩
    · rw [State.observation_bad hf, hresponses]
    · obtain ⟨c', after', rfl⟩ := List.exists_cons_of_ne_nil hafter
      have hlength : (before ++ c :: c' :: after').length = before.length + 1 + (after'.length + 1) := by simp; omega
      rw [hlength, core_run_add _ hrun, ← hresponses]
      exact run_latched after'.length rfl hf

end Sys2Proof.Machine
